-- ==== Sys2Proof/Word.lean ====
section
/-! DEFINITION. The machine's value types (spec/00_scope.md R4, R5, R6): every quantity is unsigned. -/

namespace Sys2Proof

/-- `u8`: a general register, a timer, a byte of memory (R4 `XLEN`). -/
abbrev Byte := BitVec 8

/-- `u16`: `I`, `PC`, a return address, an instruction word (R4 `ILEN`, `PCLEN`). -/
abbrev Word := BitVec 16

/-- An index of a general register, 0 to 15 (10_state.md R20). -/
abbrev RegIx := Fin 16

/-- The number of a key, 0 to 15 (10_state.md R27). -/
abbrev KeyIx := Fin 16

/-- A snapshot of the keypad: flag `k` is true when key `k` is pressed (10_state.md R27). -/
abbrev Keys := Vector Bool 16

/-- The framebuffer: 32 rows, row 0 at the top, of 64 pixels, column 0 at the left (10_state.md R28). -/
abbrev Frame := Vector (Vector Bool 64) 32

end Sys2Proof
end

