-- ==== Sys2Proof/Config.lean ====
section
/-! DEFINITION. What the spec leaves open: the batch length, the host's inputs and the random bytes. None has a body,
so nothing proved can rest on a value of theirs. -/

namespace Sys2Proof

/-- What the input source supplies at one input sample (spec/60_exceptions.md R175): a snapshot of the
keypad and the two control signals it may raise. -/
structure HostInput where
  keys : Keys
  quit : Bool
  pauseToggle : Bool
  deriving DecidableEq, Repr, Inhabited

/-- `IPC`: instruction steps in the batch of a Running cycle (00_scope.md R4: OPEN; D22). -/
opaque Config.ipc : Nat

/-- The input of the `k`-th input sample: any snapshot and any signals (70_reset_and_hazards.md R207). -/
opaque Config.hostInput : Nat → HostInput

/-- The byte `draw8()` gives at the `k`-th draw: free (41_arithmetic_logic.md R121, D20). -/
opaque Config.draw8 : Nat → Byte

end Sys2Proof
end

