-- ==== Sys2Proof/Syntax.lean ====
section
/-! DEFINITION. The 34 instructions of spec/30_encoding.md R75, one constructor per row. -/

namespace Sys2Proof

/-- One constructor per row of the opcode map, in its order. An operand has the width of its field
(R71, R73), so every value of this type is an instruction the hardware has. `shr` and `shl` keep the
field `y` that R81 says is decoded and not used. -/
inductive Instr where
  /-- `00E0` CLS (43_display.md R140) -/
  | cls
  /-- `00EE` RET (40_control_flow.md R101) -/
  | ret
  /-- `1NNN` JP nnn (R102) -/
  | jp (nnn : BitVec 12)
  /-- `2NNN` CALL nnn (R103) -/
  | call (nnn : BitVec 12)
  /-- `3XNN` SE Vx,nn (R104) -/
  | seImm (x : RegIx) (nn : Byte)
  /-- `4XNN` SNE Vx,nn (R105) -/
  | sneImm (x : RegIx) (nn : Byte)
  /-- `5XY0` SE Vx,Vy (R106) -/
  | seReg (x y : RegIx)
  /-- `6XNN` LD Vx,nn (41_arithmetic_logic.md R110) -/
  | ldImm (x : RegIx) (nn : Byte)
  /-- `7XNN` ADD Vx,nn (R111) -/
  | addImm (x : RegIx) (nn : Byte)
  /-- `8XY0` LD Vx,Vy (R112) -/
  | ldReg (x y : RegIx)
  /-- `8XY1` OR Vx,Vy (R113) -/
  | orReg (x y : RegIx)
  /-- `8XY2` AND Vx,Vy (R114) -/
  | andReg (x y : RegIx)
  /-- `8XY3` XOR Vx,Vy (R115) -/
  | xorReg (x y : RegIx)
  /-- `8XY4` ADD Vx,Vy (R116) -/
  | addReg (x y : RegIx)
  /-- `8XY5` SUB Vx,Vy (R117) -/
  | subReg (x y : RegIx)
  /-- `8XY6` SHR Vx (R118); `y` is not used (R81) -/
  | shr (x y : RegIx)
  /-- `8XY7` SUBN Vx,Vy (R119) -/
  | subnReg (x y : RegIx)
  /-- `8XYE` SHL Vx (R120); `y` is not used (R81) -/
  | shl (x y : RegIx)
  /-- `9XY0` SNE Vx,Vy (R107) -/
  | sneReg (x y : RegIx)
  /-- `ANNN` LD I,nnn (42_memory_index.md R130) -/
  | ldI (nnn : BitVec 12)
  /-- `BNNN` JP V0,nnn (40_control_flow.md R108) -/
  | jpV0 (nnn : BitVec 12)
  /-- `CXNN` RND Vx,nn (41_arithmetic_logic.md R121) -/
  | rnd (x : RegIx) (nn : Byte)
  /-- `DXYN` DRW Vx,Vy,n (43_display.md R141) -/
  | drw (x y : RegIx) (n : BitVec 4)
  /-- `EX9E` SKP Vx (45_input.md R160) -/
  | skp (x : RegIx)
  /-- `EXA1` SKNP Vx (R161) -/
  | sknp (x : RegIx)
  /-- `FX07` LD Vx,DT (44_timers_sound.md R150) -/
  | ldVxDt (x : RegIx)
  /-- `FX0A` LD Vx,K (45_input.md R162) -/
  | ldVxK (x : RegIx)
  /-- `FX15` LD DT,Vx (44_timers_sound.md R151) -/
  | ldDtVx (x : RegIx)
  /-- `FX18` LD ST,Vx (R152) -/
  | ldStVx (x : RegIx)
  /-- `FX1E` ADD I,Vx (42_memory_index.md R131) -/
  | addI (x : RegIx)
  /-- `FX29` LD F,Vx (R134) -/
  | ldF (x : RegIx)
  /-- `FX33` LD B,Vx (R135) -/
  | ldB (x : RegIx)
  /-- `FX55` LD [I],Vx (R132) -/
  | ldMemVx (x : RegIx)
  /-- `FX65` LD Vx,[I] (R133) -/
  | ldVxMem (x : RegIx)
  deriving DecidableEq, Repr

end Sys2Proof
end

