-- ==== Sys2Proof/WellFormed.lean ====
section
/-! DEFINITION. Which 16-bit words are instructions: the opcode map of spec/30_encoding.md R75 as masks and
matches, written apart from the decoder (which dispatches by R74), so that each checks the other.
The operand types of `Instr` carry the operands' ranges (R73), so the check is on words. -/

namespace Sys2Proof

/-- One row of R75: a word selects it exactly when `op & mask = match`. -/
structure OpcodeRow where
  mnemonic : String
  mask : Word
  pattern : Word
  deriving DecidableEq, Repr

/-- `op & mask = match` (R75). -/
def OpcodeRow.selects (r : OpcodeRow) (op : Word) : Bool := op &&& r.mask == r.pattern

/-- Rows 1 to 19 of R75 (families 0x0 to 0x9). -/
def opcodeRowsLow : List OpcodeRow := [
  ⟨"CLS", 0xFFFF#16, 0x00E0#16⟩,
  ⟨"RET", 0xFFFF#16, 0x00EE#16⟩,
  ⟨"JP_nnn", 0xF000#16, 0x1000#16⟩,
  ⟨"CALL_nnn", 0xF000#16, 0x2000#16⟩,
  ⟨"SE_Vx_nn", 0xF000#16, 0x3000#16⟩,
  ⟨"SNE_Vx_nn", 0xF000#16, 0x4000#16⟩,
  ⟨"SE_Vx_Vy", 0xF00F#16, 0x5000#16⟩,
  ⟨"LD_Vx_nn", 0xF000#16, 0x6000#16⟩,
  ⟨"ADD_Vx_nn", 0xF000#16, 0x7000#16⟩,
  ⟨"LD_Vx_Vy", 0xF00F#16, 0x8000#16⟩,
  ⟨"OR_Vx_Vy", 0xF00F#16, 0x8001#16⟩,
  ⟨"AND_Vx_Vy", 0xF00F#16, 0x8002#16⟩,
  ⟨"XOR_Vx_Vy", 0xF00F#16, 0x8003#16⟩,
  ⟨"ADD_Vx_Vy", 0xF00F#16, 0x8004#16⟩,
  ⟨"SUB_Vx_Vy", 0xF00F#16, 0x8005#16⟩,
  ⟨"SHR_Vx", 0xF00F#16, 0x8006#16⟩,
  ⟨"SUBN_Vx_Vy", 0xF00F#16, 0x8007#16⟩,
  ⟨"SHL_Vx", 0xF00F#16, 0x800E#16⟩,
  ⟨"SNE_Vx_Vy", 0xF00F#16, 0x9000#16⟩]

/-- Rows 20 to 34 of R75 (families 0xA to 0xF). -/
def opcodeRowsHigh : List OpcodeRow := [
  ⟨"LD_I_nnn", 0xF000#16, 0xA000#16⟩,
  ⟨"JP_V0_nnn", 0xF000#16, 0xB000#16⟩,
  ⟨"RND_Vx_nn", 0xF000#16, 0xC000#16⟩,
  ⟨"DRW_Vx_Vy_n", 0xF000#16, 0xD000#16⟩,
  ⟨"SKP_Vx", 0xF0FF#16, 0xE09E#16⟩,
  ⟨"SKNP_Vx", 0xF0FF#16, 0xE0A1#16⟩,
  ⟨"LD_Vx_DT", 0xF0FF#16, 0xF007#16⟩,
  ⟨"LD_Vx_K", 0xF0FF#16, 0xF00A#16⟩,
  ⟨"LD_DT_Vx", 0xF0FF#16, 0xF015#16⟩,
  ⟨"LD_ST_Vx", 0xF0FF#16, 0xF018#16⟩,
  ⟨"ADD_I_Vx", 0xF0FF#16, 0xF01E#16⟩,
  ⟨"LD_F_Vx", 0xF0FF#16, 0xF029#16⟩,
  ⟨"LD_B_Vx", 0xF0FF#16, 0xF033#16⟩,
  ⟨"LD__I__Vx", 0xF0FF#16, 0xF055#16⟩,
  ⟨"LD_Vx__I", 0xF0FF#16, 0xF065#16⟩]

/-- The opcode map of R75, 34 rows in its order. -/
def opcodeTable : List OpcodeRow := opcodeRowsLow ++ opcodeRowsHigh

/-- A word is well formed when it selects a row of R75; every other word is unknown (R76). -/
def wellFormedWord (op : Word) : Bool := opcodeTable.any fun r => r.selects op

/-- The row of R75 (numbered from 0) that an instruction belongs to. -/
def Instr.rowIndex : Instr → Nat
  | .cls => 0
  | .ret => 1
  | .jp _ => 2
  | .call _ => 3
  | .seImm _ _ => 4
  | .sneImm _ _ => 5
  | .seReg _ _ => 6
  | .ldImm _ _ => 7
  | .addImm _ _ => 8
  | .ldReg _ _ => 9
  | .orReg _ _ => 10
  | .andReg _ _ => 11
  | .xorReg _ _ => 12
  | .addReg _ _ => 13
  | .subReg _ _ => 14
  | .shr _ _ => 15
  | .subnReg _ _ => 16
  | .shl _ _ => 17
  | .sneReg _ _ => 18
  | .ldI _ => 19
  | .jpV0 _ => 20
  | .rnd _ _ => 21
  | .drw _ _ _ => 22
  | .skp _ => 23
  | .sknp _ => 24
  | .ldVxDt _ => 25
  | .ldVxK _ => 26
  | .ldDtVx _ => 27
  | .ldStVx _ => 28
  | .addI _ => 29
  | .ldF _ => 30
  | .ldB _ => 31
  | .ldMemVx _ => 32
  | .ldVxMem _ => 33

/-- The row of R75 that an instruction belongs to. -/
def Instr.row (i : Instr) : Option OpcodeRow := opcodeTable[i.rowIndex]?

end Sys2Proof
end

