-- ==== Sys2Proof/Decode.lean ====
section
/-! DEFINITION. The decoder (spec/30_encoding.md R71, R74, R76) and the encoder (R72, R75). -/

namespace Sys2Proof

/-- The record of fields the decoder takes from every word (R71). -/
structure Fields where
  op : Word
  family : BitVec 4
  x : RegIx
  y : RegIx
  n : BitVec 4
  nn : Byte
  nnn : BitVec 12
  deriving DecidableEq, Repr

/-- Why bytes hold no instruction. -/
inductive DecodeError where
  /-- The word matches no row of R75 (R76): the step takes the fault UnknownOpcode. -/
  | unknownOpcode (op : Word)
  /-- Fewer than two bytes were given. No step meets it: a fetch reads both bytes or faults. -/
  | truncated
  deriving DecidableEq, Repr

/-- The fields of a word (R71): pure, total, no failure mode. -/
def fieldsOf (op : Word) : Fields :=
  { op := op
    family := op.extractLsb' 12 4
    x := (op.extractLsb' 8 4).toFin
    y := (op.extractLsb' 4 4).toFin
    n := op.extractLsb' 0 4
    nn := op.extractLsb' 0 8
    nnn := op.extractLsb' 0 12 }

/-- Families 0x8: the selector is `n` (R74). -/
def selectArith (f : Fields) : Except DecodeError Instr :=
  if f.n = 0x0#4 then .ok (.ldReg f.x f.y)
  else if f.n = 0x1#4 then .ok (.orReg f.x f.y)
  else if f.n = 0x2#4 then .ok (.andReg f.x f.y)
  else if f.n = 0x3#4 then .ok (.xorReg f.x f.y)
  else if f.n = 0x4#4 then .ok (.addReg f.x f.y)
  else if f.n = 0x5#4 then .ok (.subReg f.x f.y)
  else if f.n = 0x6#4 then .ok (.shr f.x f.y)
  else if f.n = 0x7#4 then .ok (.subnReg f.x f.y)
  else if f.n = 0xE#4 then .ok (.shl f.x f.y)
  else .error (.unknownOpcode f.op)

/-- Family 0xE: the selector is `nn` (R74). -/
def selectKey (f : Fields) : Except DecodeError Instr :=
  if f.nn = 0x9E#8 then .ok (.skp f.x)
  else if f.nn = 0xA1#8 then .ok (.sknp f.x)
  else .error (.unknownOpcode f.op)

/-- Family 0xF: the selector is `nn` (R74). -/
def selectMisc (f : Fields) : Except DecodeError Instr :=
  if f.nn = 0x07#8 then .ok (.ldVxDt f.x)
  else if f.nn = 0x0A#8 then .ok (.ldVxK f.x)
  else if f.nn = 0x15#8 then .ok (.ldDtVx f.x)
  else if f.nn = 0x18#8 then .ok (.ldStVx f.x)
  else if f.nn = 0x1E#8 then .ok (.addI f.x)
  else if f.nn = 0x29#8 then .ok (.ldF f.x)
  else if f.nn = 0x33#8 then .ok (.ldB f.x)
  else if f.nn = 0x55#8 then .ok (.ldMemVx f.x)
  else if f.nn = 0x65#8 then .ok (.ldVxMem f.x)
  else .error (.unknownOpcode f.op)

/-- Dispatch by family, and by selector where the family holds several operations (R74). UNVERIFIED: the
numerals are the spec's decision D3, the strict selectors its decision D15 (logs 12 and 26). -/
def select (f : Fields) : Except DecodeError Instr :=
  if f.family = 0x0#4 then
    if f.op = 0x00E0#16 then .ok .cls
    else if f.op = 0x00EE#16 then .ok .ret
    else .error (.unknownOpcode f.op)
  else if f.family = 0x1#4 then .ok (.jp f.nnn)
  else if f.family = 0x2#4 then .ok (.call f.nnn)
  else if f.family = 0x3#4 then .ok (.seImm f.x f.nn)
  else if f.family = 0x4#4 then .ok (.sneImm f.x f.nn)
  else if f.family = 0x5#4 then
    if f.n = 0x0#4 then .ok (.seReg f.x f.y) else .error (.unknownOpcode f.op)
  else if f.family = 0x6#4 then .ok (.ldImm f.x f.nn)
  else if f.family = 0x7#4 then .ok (.addImm f.x f.nn)
  else if f.family = 0x8#4 then selectArith f
  else if f.family = 0x9#4 then
    if f.n = 0x0#4 then .ok (.sneReg f.x f.y) else .error (.unknownOpcode f.op)
  else if f.family = 0xA#4 then .ok (.ldI f.nnn)
  else if f.family = 0xB#4 then .ok (.jpV0 f.nnn)
  else if f.family = 0xC#4 then .ok (.rnd f.x f.nn)
  else if f.family = 0xD#4 then .ok (.drw f.x f.y f.n)
  else if f.family = 0xE#4 then selectKey f
  else selectMisc f

/-- The instruction a word stands for, or the reason it stands for none (R75, R76). -/
def decode (op : Word) : Except DecodeError Instr := select (fieldsOf op)

/-- The word of two bytes in memory order: big-endian (20_memory.md R52). -/
def wordOfBytes (b0 b1 : Byte) : Word := b0 ++ b1

/-- The first byte of a word in memory order, bits 15 to 8 (R52). -/
def highByte (op : Word) : Byte := op.extractLsb' 8 8

/-- The second byte of a word in memory order, bits 7 to 0 (R52). -/
def lowByte (op : Word) : Byte := op.extractLsb' 0 8

/-- Decode the instruction at the head of a byte string; every instruction has two bytes (R70). -/
def decodeBytes : List Byte → Except DecodeError (Instr × List Byte)
  | b0 :: b1 :: rest =>
    match decode (wordOfBytes b0 b1) with
    | .ok i => .ok (i, rest)
    | .error e => .error e
  | _ => .error .truncated

/-- Format NNN (R72). -/
def wordNNN (family : BitVec 4) (nnn : BitVec 12) : Word := family ++ nnn

/-- Formats XNN and X (R72). -/
def wordXNN (family : BitVec 4) (x : RegIx) (nn : Byte) : Word :=
  family ++ ((BitVec.ofFin x : BitVec 4) ++ nn)

/-- Format XYN (R72). -/
def wordXYN (family : BitVec 4) (x y : RegIx) (n : BitVec 4) : Word :=
  family ++ ((BitVec.ofFin x : BitVec 4) ++ ((BitVec.ofFin y : BitVec 4) ++ n))

/-- The word of an instruction, from the patterns of R75. -/
def encode : Instr → Word
  | .cls => 0x00E0#16
  | .ret => 0x00EE#16
  | .jp nnn => wordNNN 0x1#4 nnn
  | .call nnn => wordNNN 0x2#4 nnn
  | .seImm x nn => wordXNN 0x3#4 x nn
  | .sneImm x nn => wordXNN 0x4#4 x nn
  | .seReg x y => wordXYN 0x5#4 x y 0x0#4
  | .ldImm x nn => wordXNN 0x6#4 x nn
  | .addImm x nn => wordXNN 0x7#4 x nn
  | .ldReg x y => wordXYN 0x8#4 x y 0x0#4
  | .orReg x y => wordXYN 0x8#4 x y 0x1#4
  | .andReg x y => wordXYN 0x8#4 x y 0x2#4
  | .xorReg x y => wordXYN 0x8#4 x y 0x3#4
  | .addReg x y => wordXYN 0x8#4 x y 0x4#4
  | .subReg x y => wordXYN 0x8#4 x y 0x5#4
  | .shr x y => wordXYN 0x8#4 x y 0x6#4
  | .subnReg x y => wordXYN 0x8#4 x y 0x7#4
  | .shl x y => wordXYN 0x8#4 x y 0xE#4
  | .sneReg x y => wordXYN 0x9#4 x y 0x0#4
  | .ldI nnn => wordNNN 0xA#4 nnn
  | .jpV0 nnn => wordNNN 0xB#4 nnn
  | .rnd x nn => wordXNN 0xC#4 x nn
  | .drw x y n => wordXYN 0xD#4 x y n
  | .skp x => wordXNN 0xE#4 x 0x9E#8
  | .sknp x => wordXNN 0xE#4 x 0xA1#8
  | .ldVxDt x => wordXNN 0xF#4 x 0x07#8
  | .ldVxK x => wordXNN 0xF#4 x 0x0A#8
  | .ldDtVx x => wordXNN 0xF#4 x 0x15#8
  | .ldStVx x => wordXNN 0xF#4 x 0x18#8
  | .addI x => wordXNN 0xF#4 x 0x1E#8
  | .ldF x => wordXNN 0xF#4 x 0x29#8
  | .ldB x => wordXNN 0xF#4 x 0x33#8
  | .ldMemVx x => wordXNN 0xF#4 x 0x55#8
  | .ldVxMem x => wordXNN 0xF#4 x 0x65#8

/-- The word the opcode table numbers `w`: its `nbits` low bits, every bit above them 0. -/
def tableWord (nbits w : Nat) : Word := BitVec.ofNat 16 (w % 2 ^ nbits)

/-- The instruction the decoder reads from the word the opcode table numbers `w`, laid out in memory
order, high byte first (20_memory.md R52). -/
def decodeTableWord (nbits w : Nat) : Option Instr :=
  match decodeBytes [highByte (tableWord nbits w), lowByte (tableWord nbits w)] with
  | .ok (i, _) => some i
  | .error _ => none

end Sys2Proof
end

