-- ==== Sys2Proof/Machine/Memory.lean ====
section
/-! DEFINITION. The 4096 bytes of `MEM` as sparse data (spec/20_memory.md R50, R51, R63) and their reset contents
(spec/10_state.md R34). -/

namespace Sys2Proof.Machine

/-- `MEM_SIZE` (00_scope.md R4): addresses 0 to 4095 exist. -/
def memSize : Nat := 4096

/-- `ENTRY` (R4). UNVERIFIED: the numeral is the spec's decision D1 (log 13). -/
def entry : Nat := 0x200

/-- `FONT_BASE` (R4). UNVERIFIED: the spec's decision D2 (log 14). -/
def fontBase : Nat := 0x050

/-- `GLYPH_BYTES` (R4). -/
def glyphBytes : Nat := 5

/-- Glyphs 0 to 7, top row first (20_memory.md R51). UNVERIFIED: decision D2 (log 14). -/
def glyphsLow : List Byte := [
  0xF0, 0x90, 0x90, 0x90, 0xF0,
  0x20, 0x60, 0x20, 0x20, 0x70,
  0xF0, 0x10, 0xF0, 0x80, 0xF0,
  0xF0, 0x10, 0xF0, 0x10, 0xF0,
  0x90, 0x90, 0xF0, 0x10, 0x10,
  0xF0, 0x80, 0xF0, 0x10, 0xF0,
  0xF0, 0x80, 0xF0, 0x90, 0xF0,
  0xF0, 0x10, 0x20, 0x40, 0x40]

/-- Glyphs 8 to F, top row first (R51). UNVERIFIED: decision D2 (log 14). -/
def glyphsHigh : List Byte := [
  0xF0, 0x90, 0xF0, 0x90, 0xF0,
  0xF0, 0x90, 0xF0, 0x10, 0xF0,
  0xF0, 0x90, 0xF0, 0x90, 0x90,
  0xE0, 0x90, 0xE0, 0x90, 0xE0,
  0xF0, 0x80, 0x80, 0x80, 0xF0,
  0xE0, 0x90, 0x90, 0x90, 0xE0,
  0xF0, 0x80, 0xF0, 0x80, 0xF0,
  0xF0, 0x80, 0xF0, 0x80, 0x80]

/-- The glyph table: 16 glyphs of 5 bytes (R51). -/
def glyphTable : List Byte := glyphsLow ++ glyphsHigh

/-- What a byte of memory that nothing has written reads as: the reset contents (10_state.md R34), the
glyph table at `FONT_BASE` and zero elsewhere. UNVERIFIED: decisions D2 and D21 (log 11). -/
def Memory.resetByte (a : Nat) : Byte :=
  if fontBase ≤ a ∧ a < fontBase + glyphTable.length then glyphTable.getD (a - fontBase) 0 else 0

/-- `MEM`: the bytes that differ from the reset contents, addresses rising. -/
abbrev Memory := List Host.Cell

/-- The byte at an address. -/
def Memory.read : Memory → Nat → Byte
  | [], a => Memory.resetByte a
  | (b, v) :: rest, a => if a = b then v else Memory.read rest a

/-- The memory with one byte replaced, in canonical form. -/
def Memory.write : Memory → Nat → Byte → Memory
  | [], a, v => if v = Memory.resetByte a then [] else [(a, v)]
  | (b, w) :: rest, a, v =>
    if a < b then
      if v = Memory.resetByte a then (b, w) :: rest else (a, v) :: (b, w) :: rest
    else if a = b then
      if v = Memory.resetByte a then rest else (a, v) :: rest
    else (b, w) :: Memory.write rest a v

/-- The memory with consecutive bytes replaced from `base` up, lowest address first (R53, R58). -/
def Memory.writeBytes : Memory → Nat → List Byte → Memory
  | m, _, [] => m
  | m, base, b :: bs => Memory.writeBytes (Memory.write m base b) (base + 1) bs

/-- The canonical form: addresses strictly rising, each one that exists, no byte listed that reads the
same unlisted. -/
abbrev Memory.wf (m : Memory) : Prop :=
  m.Pairwise (fun c d => c.1 < d.1) ∧ ∀ c ∈ m, c.1 < memSize ∧ c.2 ≠ Memory.resetByte c.1

end Sys2Proof.Machine
end

