-- ==== Sys2Proof/Machine/State.lean ====
section
/-! DEFINITION. The machine's state (spec/10_state.md R33), its six faults (spec/60_exceptions.md R170) and its reset
values (R34). -/

namespace Sys2Proof.Machine

/-- `RS` (10_state.md R29). -/
inductive RunState where
  | running
  | paused
  | stopped
  deriving DecidableEq, Repr

/-- The six faults of R170. Each is taken as R171 describes and is then a NEXT state whose fault record
holds it: `step` and `exec` answer `Host.Outcome.fault` on no state. An argument is R170's `info`, the
first address concerned. -/
inductive Fault where
  /-- Code 1. Raised by a step whose fetched word matches no row of R75 (R100 step 5, R187). Safe: the
  spec's default policy. -/
  | unknownOpcode
  /-- Code 2. Raised by CALL when `SP = 16` (R103). Safe: the spec names this fault. -/
  | stackOverflow
  /-- Code 3. Raised by RET when `SP = 0` (R101). Safe: the spec names this fault. -/
  | stackUnderflow
  /-- Code 4. Raised by the fetch when `PC > 4094` (R55). Safe: decision D10 errs toward unprovable. -/
  | fetchOutOfRange (address : Nat)
  /-- Code 5. Raised by DRW, LD [I],Vx, LD Vx,[I] and LD B,Vx when a byte they would touch lies above
  4095 (R55). Safe: decision D10 errs toward unprovable. -/
  | dataOutOfRange (address : Nat)
  /-- Code 6. Raised by LD [I],Vx and LD B,Vx when they would write below ENTRY (R56). Safe: decision D11
  errs toward unprovable. -/
  | reservedWrite (address : Nat)
  deriving DecidableEq, Repr

/-- The code of a fault (R170). -/
def Fault.code : Fault → Nat
  | .unknownOpcode => 1
  | .stackOverflow => 2
  | .stackUnderflow => 3
  | .fetchOutOfRange _ => 4
  | .dataOutOfRange _ => 5
  | .reservedWrite _ => 6

/-- Why a step has no meaning. -/
inductive Refusal where
  /-- An instruction this model gives no meaning. Every instruction has one, so no step raises it. Safe. -/
  | notModelled (mnemonic : String)
  deriving DecidableEq, Repr

/-- The fault record (10_state.md R31). Its code is `cause.code`; `opcode` is none when no word was read. -/
structure FaultRecord where
  cause : Fault
  pc : Word
  opcode : Option Word
  deriving DecidableEq, Repr

/-- What the core hands to the host: the effect signals (60_exceptions.md R181) and the present request
(R182). -/
inductive Output where
  /-- DRW and CLS -/
  | redrawRequested
  /-- LD ST,Vx -/
  | soundStateChanged
  /-- LD Vx,K -/
  | awaitingKeypress (r : RegIx)
  /-- a faulting step -/
  | halted (reason : Fault)
  /-- the display sink may read the framebuffer -/
  | presentRequest
  deriving DecidableEq, Repr

/-- Where in the scheduling cycle the machine is (R33 last paragraph, R179). The model's own field (log 1). -/
inductive Phase where
  /-- the next event is the top of a cycle: input sample and key-wait completion -/
  | cycleTop
  /-- in the batch of a cycle, with this many instruction steps left in the budget -/
  | batch (budget : Nat)
  deriving DecidableEq, Repr

/-- The state of the machine: the tuple of 10_state.md R33, then four fields of the model's own. -/
structure State where
  /-- `V[0]` to `V[15]` (R20) -/
  v : Vector Byte 16
  /-- `I` (R22) -/
  iReg : Word
  /-- `PC` (R23) -/
  pc : Word
  /-- `MEM` (R24) -/
  mem : Memory
  /-- `STACK[0]` to `STACK[15]` (R25) -/
  stack : Vector Word 16
  /-- `SP`, the number of valid stack entries (R25) -/
  sp : Fin 17
  /-- `DT` (R26) -/
  dt : Byte
  /-- `ST` (R26) -/
  st : Byte
  /-- `KEYS` (R27) -/
  keys : Keys
  /-- `FB` (R28) -/
  fb : Frame
  /-- `RS` (R29) -/
  rs : RunState
  /-- `WAIT` (R30) -/
  wait : Option RegIx
  /-- `FAULT` (R31) -/
  fault : Option FaultRecord
  /-- `REDRAW` (R32) -/
  redraw : Bool
  /-- where in the cycle the machine is (log 1) -/
  phase : Phase
  /-- input samples taken: the index of the next free host input (log 2) -/
  samples : Nat
  /-- random bytes drawn: the index of the next free byte (log 4) -/
  draws : Nat
  /-- the outputs of the latest event, oldest first (log 7) -/
  outputs : List Output
  deriving DecidableEq, Repr

/-- The machine after reset with an empty program (10_state.md R34, 70_reset_and_hazards.md R200).
UNVERIFIED: all values but PC and RS are the spec's decision D21 (log 10).
DESIGN CHOICE: the last four fields are the model's own (log 34). -/
def State.reset : State :=
  { v := Vector.replicate 16 0
    iReg := 0
    pc := BitVec.ofNat 16 entry
    mem := []
    stack := Vector.replicate 16 0
    sp := 0
    dt := 0
    st := 0
    keys := Vector.replicate 16 false
    fb := Vector.replicate 32 (Vector.replicate 64 false)
    rs := .running
    wait := none
    fault := none
    redraw := false
    phase := .cycleTop
    samples := 0
    draws := 0
    outputs := [] }

/-- What one event answers. -/
abbrev Result := Host.Outcome State Fault Refusal

end Sys2Proof.Machine
end

