-- ==== Sys2Proof/Machine/Ops.lean ====
section
/-! DEFINITION. The named operations over registers, memory and the call stack, fetching a word, and taking a fault.
There is no return from a fault (spec/60_exceptions.md R173). -/

namespace Sys2Proof.Machine

/-- `V[x]` (10_state.md R20). -/
def State.reg (s : State) (x : RegIx) : Byte := s.v[x.val]

/-- `V[x] <- b` (R20): all sixteen hold what was last written. -/
def State.setReg (s : State) (x : RegIx) (b : Byte) : State := { s with v := s.v.set x.val b }

/-- `I <- w` (R22). -/
def State.setI (s : State) (w : Word) : State := { s with iReg := w }

/-- `PC <- w` (R23). -/
def State.setPc (s : State) (w : Word) : State := { s with pc := w }

/-- `DT <- b` (R26). -/
def State.setDt (s : State) (b : Byte) : State := { s with dt := b }

/-- `ST <- b` (R26). -/
def State.setSt (s : State) (b : Byte) : State := { s with st := b }

/-- `MEM` replaced whole. -/
def State.setMem (s : State) (m : Memory) : State := { s with mem := m }

/-- The step produces an output (60_exceptions.md R181). -/
def State.emit (s : State) (o : Output) : State := { s with outputs := s.outputs ++ [o] }

/-- `REDRAW <- true ; emit RedrawRequested` (43_display.md R140, R141). -/
def State.requestRedraw (s : State) : State := State.emit { s with redraw := true } .redrawRequested

/-- The fetch increment: `PC <- (PC + 2) mod 65536` (40_control_flow.md R100 step 3). -/
def State.advance (s : State) : State := s.setPc (s.pc + 2)

/-- The fetch increment, and 2 more when the instruction's condition holds (40_control_flow.md
section 3). -/
def State.skipIf (s : State) (c : Bool) : State := if c then s.advance.advance else s.advance

/-- `Push(v)` (10_state.md R25). A failed push changes nothing. -/
def push (w : Word) (s : State) : Except Fault State :=
  if h : s.sp.val < 16 then
    .ok { s with stack := s.stack.set s.sp.val w, sp := ⟨s.sp.val + 1, by omega⟩ }
  else .error .stackOverflow

/-- `Pop()` (R25): the value popped and the state after. The entry keeps its value. -/
def pop (s : State) : Except Fault (Word × State) :=
  if h : 0 < s.sp.val then
    .ok (s.stack[s.sp.val - 1], { s with sp := ⟨s.sp.val - 1, by omega⟩ })
  else .error .stackUnderflow

/-- Taking a fault (60_exceptions.md R171), in a state no write of the step has changed: the record is
written, the machine stops, Halted is emitted and nothing else changes. -/
def takeFault (f : Fault) (opcode : Option Word) (s : State) : State :=
  State.emit { s with fault := some ⟨f, s.pc, opcode⟩, rs := .stopped } (.halted f)

/-- The end of an instruction that may raise a fault: it completes, or takes the fault in the state
before it. The record's word is the instruction's own (log 36). -/
def complete (i : Instr) (s : State) : Except Fault State → Result
  | .ok t => .next t
  | .error f => .next (takeFault f (some (encode i)) s)

/-- The byte addresses of a block, ascending (20_memory.md R53, R62): unbounded integers, no wrap. -/
def blockAddresses (base len : Nat) : List Nat := (List.range len).map (base + ·)

/-- The first address of a block that is above 4095, if any (R55). -/
def firstOutOfRange (base len : Nat) : Option Nat :=
  (blockAddresses base len).find? fun a => decide (4095 < a)

/-- The check before a block is read: the fault it raises, if any (R55). -/
def loadFault (base len : Nat) : Option Fault := (firstOutOfRange base len).map .dataOutOfRange

/-- The check before a block is written (R55, R56): DataOutOfRange first, then ReservedWrite. -/
def storeFault (base len : Nat) : Option Fault :=
  match firstOutOfRange base len with
  | some a => some (.dataOutOfRange a)
  | none => if base < entry then some (.reservedWrite base) else none

/-- Write a block after its check; on a fault no byte is written (60_exceptions.md R172). -/
def storeBlock (base : Nat) (bytes : List Byte) (s : State) : Except Fault State :=
  match storeFault base bytes.length with
  | some f => .error f
  | none => .ok (s.setMem (s.mem.writeBytes base bytes))

/-- The instruction fetch `MemRead(PC, 2)`: big-endian, at any alignment (20_memory.md R52, R54, R55). -/
def fetch (s : State) : Except Fault Word :=
  if s.pc.toNat ≤ 4094 then
    .ok (wordOfBytes (s.mem.read s.pc.toNat) (s.mem.read (s.pc.toNat + 1)))
  else .error (.fetchOutOfRange s.pc.toNat)

end Sys2Proof.Machine
end

