-- ==== Sys2Proof/Machine/Flags.lean ====
section
/-! DEFINITION. The flags register and every flag computation (spec/10_state.md R21, spec/41_arithmetic_logic.md R122,
R123). -/

namespace Sys2Proof.Machine

/-- `FLAG_REG`: the flags register is `V[15]`. UNVERIFIED: decision D36 (log 13). -/
def flagReg : RegIx := 15

/-- A flag as all eight bits of `VF`: exactly 0 or 1 (10_state.md R21 b). -/
def flagByte (c : Bool) : Byte := if c then 1 else 0

/-- The carry of an addition: `p + q > 255` over the integers (R122 a). -/
def carryOut (p q : Byte) : Bool := decide (255 < p.toNat + q.toNat)

/-- No borrow in `p - q`: `p >= q` (R122 b). -/
def noBorrow (p q : Byte) : Bool := decide (q.toNat ≤ p.toNat)

/-- The bit a right shift by one shifts out (R122 c). -/
def bitOutRight (p : Byte) : Bool := p.getLsbD 0

/-- The bit a left shift by one shifts out (R122 d). -/
def bitOutLeft (p : Byte) : Bool := p.getLsbD 7

/-- The two writes of a flag-writing instruction: the result to `V[x]`, THEN the flag to `VF` (R123).
UNVERIFIED: the order is the spec's decision D5 (log 17). -/
def State.writeResultThenFlag (s : State) (x : RegIx) (result : Byte) (flag : Bool) : State :=
  (s.setReg x result).setReg flagReg (flagByte flag)

end Sys2Proof.Machine
end

