-- ==== Sys2Proof/Machine/Arithmetic.lean ====
section
/-! DEFINITION. Arithmetic, logic and random (spec/41_arithmetic_logic.md R110 to R121). -/

namespace Sys2Proof.Machine

/-- `V[x] <- b` and nothing else but the fetch increment: the shape of the instructions that write one
register and no flag. -/
def State.writeReg (s : State) (x : RegIx) (b : Byte) : State := (s.setReg x b).advance

/-- `V[x] <- result`, `VF <- flag` and the fetch increment (R123). -/
def State.writeRegFlag (s : State) (x : RegIx) (result : Byte) (flag : Bool) : State :=
  (s.writeResultThenFlag x result flag).advance

/-- LD Vx,nn (R110). -/
def execLdImm (x : RegIx) (nn : Byte) (s : State) : Result := .next (s.writeReg x nn)

/-- ADD Vx,nn (R111): no flag. UNVERIFIED: decision D4, conflict C1 (log 16). -/
def execAddImm (x : RegIx) (nn : Byte) (s : State) : Result := .next (s.writeReg x (s.reg x + nn))

/-- LD Vx,Vy (R112). -/
def execLdReg (x y : RegIx) (s : State) : Result := .next (s.writeReg x (s.reg y))

/-- OR Vx,Vy (R113). UNVERIFIED: `VF` unchanged is decision D7 (log 19). -/
def execOrReg (x y : RegIx) (s : State) : Result := .next (s.writeReg x (s.reg x ||| s.reg y))

/-- AND Vx,Vy (R114). UNVERIFIED: as OR (log 19). -/
def execAndReg (x y : RegIx) (s : State) : Result := .next (s.writeReg x (s.reg x &&& s.reg y))

/-- XOR Vx,Vy (R115). UNVERIFIED: as OR (log 19). -/
def execXorReg (x y : RegIx) (s : State) : Result := .next (s.writeReg x (s.reg x ^^^ s.reg y))

/-- ADD Vx,Vy (R116). -/
def execAddReg (x y : RegIx) (s : State) : Result :=
  .next (s.writeRegFlag x (s.reg x + s.reg y) (carryOut (s.reg x) (s.reg y)))

/-- SUB Vx,Vy (R117). -/
def execSubReg (x y : RegIx) (s : State) : Result :=
  .next (s.writeRegFlag x (s.reg x - s.reg y) (noBorrow (s.reg x) (s.reg y)))

/-- SHR Vx (R118): `V[x]` in place, `y` unused. UNVERIFIED: decision D6 (log 18). -/
def execShr (x _y : RegIx) (s : State) : Result :=
  .next (s.writeRegFlag x (s.reg x >>> 1) (bitOutRight (s.reg x)))

/-- SUBN Vx,Vy (R119). -/
def execSubnReg (x y : RegIx) (s : State) : Result :=
  .next (s.writeRegFlag x (s.reg y - s.reg x) (noBorrow (s.reg y) (s.reg x)))

/-- SHL Vx (R120): `V[x]` in place, `y` unused. UNVERIFIED: decision D6 (log 18). -/
def execShl (x _y : RegIx) (s : State) : Result :=
  .next (s.writeRegFlag x (s.reg x <<< 1) (bitOutLeft (s.reg x)))

/-- `V[x] <- r & nn` for a drawn byte `r`, one draw used up (R121). -/
def randomMasked (r : Byte) (x : RegIx) (nn : Byte) (s : State) : State :=
  State.writeReg { s with draws := s.draws + 1 } x (r &&& nn)

/-- RND Vx,nn (R121): the byte is free (log 4). -/
def execRnd (x : RegIx) (nn : Byte) (s : State) : Result :=
  .next (randomMasked (Config.draw8 s.draws) x nn s)

end Sys2Proof.Machine
end

