-- ==== Sys2Proof/Machine/Operands.lean ====
section
/-! DEFINITION. The operand forms (spec/30_encoding.md R73): immediates, registers and what is computed from them. -/

namespace Sys2Proof.Machine

/-- `zext_16(nnn)` (R73). -/
def addressOperand (nnn : BitVec 12) : Word := nnn.zeroExtend 16

/-- `zext_16(b)` of a byte (R6). -/
def wordOfByte (b : Byte) : Word := b.zeroExtend 16

/-- `V[x][3:0]`, the low nibble (42_memory_index.md R134, 45_input.md R160). -/
def State.lowNibble (s : State) (x : RegIx) : Fin 16 := ((s.reg x).extractLsb' 0 4).toFin

/-- Whether the key the low nibble of `V[x]` names is pressed (R160). UNVERIFIED: decision D18 (log 23). -/
def State.keyDown (s : State) (x : RegIx) : Bool := s.keys[(s.lowNibble x).val]

/-- The address of the glyph of digit `d`: `FONT_BASE + 5 * d` (R134). -/
def glyphAddress (d : Fin 16) : Word := BitVec.ofNat 16 (fontBase + glyphBytes * d.val)

/-- `I` as an address: an unbounded integer (20_memory.md R62). -/
def State.base (s : State) : Nat := s.iReg.toNat

/-- `V[0]` to `V[x]`, lowest index first (42_memory_index.md R132). -/
def State.regsUpTo (s : State) (x : RegIx) : List Byte := s.v.toList.take (x.val + 1)

/-- `V[0]` to `V[x]` replaced by the bytes from `base` up; the others kept (R133). -/
def State.loadRegsUpTo (s : State) (x : RegIx) (base : Nat) : State :=
  { s with v := Vector.ofFn fun k : Fin 16 => if k.val ≤ x.val then s.mem.read (base + k.val) else s.reg k }

/-- Hundreds, tens and ones of a byte, each in a byte of its own (R135). -/
def decimalDigits (b : Byte) : List Byte :=
  [BitVec.ofNat 8 (b.toNat / 100), BitVec.ofNat 8 (b.toNat / 10 % 10), BitVec.ofNat 8 (b.toNat % 10)]

end Sys2Proof.Machine
end

