-- ==== Sys2Proof/Machine/ControlFlow.lean ====
section
/-! DEFINITION. RET, JP, CALL, the four register skips and JP V0 (spec/40_control_flow.md R101 to R108). In each meaning
`s.pc` is `a`, the address the instruction was fetched from. -/

namespace Sys2Proof.Machine

/-- RET (R101). -/
def execRet (s : State) : Result :=
  complete .ret s <|
    match pop s with
    | .error f => .error f
    | .ok (w, t) => .ok (t.setPc w)

/-- JP nnn (R102): any target, odd or even (UNVERIFIED: decision D12, log 22). -/
def execJp (nnn : BitVec 12) (s : State) : Result := .next (s.setPc (addressOperand nnn))

/-- CALL nnn (R103): the return address is `a + 2`. -/
def execCall (nnn : BitVec 12) (s : State) : Result :=
  complete (.call nnn) s <|
    match push (s.pc + 2) s with
    | .error f => .error f
    | .ok t => .ok (t.setPc (addressOperand nnn))

/-- SE Vx,nn (R104). -/
def execSeImm (x : RegIx) (nn : Byte) (s : State) : Result := .next (s.skipIf (s.reg x == nn))

/-- SNE Vx,nn (R105). -/
def execSneImm (x : RegIx) (nn : Byte) (s : State) : Result := .next (s.skipIf (s.reg x != nn))

/-- SE Vx,Vy (R106). -/
def execSeReg (x y : RegIx) (s : State) : Result := .next (s.skipIf (s.reg x == s.reg y))

/-- SNE Vx,Vy (R107). -/
def execSneReg (x y : RegIx) (s : State) : Result := .next (s.skipIf (s.reg x != s.reg y))

/-- JP V0,nnn (R108): always `V[0]`; not reduced modulo 4096. UNVERIFIED: the instruction is the spec's
decision D14 (log 15). -/
def execJpV0 (nnn : BitVec 12) (s : State) : Result :=
  .next (s.setPc (addressOperand nnn + wordOfByte (s.reg 0)))

end Sys2Proof.Machine
end

