-- ==== Sys2Proof/Machine/Display.lean ====
section
/-! DEFINITION. CLS and DRW (spec/43_display.md R140, R141). -/

namespace Sys2Proof.Machine

/-- The framebuffer with every pixel false (R140). -/
def blankFrame : Frame := Vector.replicate 32 (Vector.replicate 64 false)

/-- The pixel at row `r` and column `c`; false outside the grid, where there is none. -/
def pixel (fb : Frame) (r c : Nat) : Bool :=
  if h : r < 32 ∧ c < 64 then (fb[r]'h.1)[c]'h.2 else false

/-- Draw one set sprite bit at row `r` and column `c`: flip the pixel there and note a collision when it
was set; outside the grid nothing (R141: clipped, no wrap). -/
def plot (r c : Nat) (p : Frame × Bool) : Frame × Bool :=
  if h : r < 32 ∧ c < 64 then
    (p.1.set r ((p.1[r]'h.1).set c (!pixel p.1 r c) h.2) h.1, p.2 || pixel p.1 r c)
  else p

/-- The bit of a sprite byte that is its column `j`: bit 7 is the leftmost (R141). UNVERIFIED: decision
D27 (log 25). -/
def spriteBit (b : Byte) (j : Nat) : Bool := b.getLsbD (7 - j)

/-- One row of a sprite: columns 0 to 7 ascending (R141, the inner loop). -/
def plotRow (b : Byte) (r x0 : Nat) (p : Frame × Bool) : Frame × Bool :=
  (List.range 8).foldl (fun q j => if spriteBit b j then plot r (x0 + j) q else q) p

/-- The sprite: its `n` rows ascending, row `k` from the byte at `base + k` (R141, the outer loop). -/
def plotSprite (m : Memory) (base n x0 y0 : Nat) (p : Frame × Bool) : Frame × Bool :=
  (List.range n).foldl (fun q k => plotRow (m.read (base + k)) (y0 + k) x0 q) p

/-- The column of the sprite's left edge: `V[x] mod 64` (R141). -/
def startColumn (b : Byte) : Nat := b.toNat % 64

/-- The row of the sprite's top edge: `V[y] mod 32` (R141). -/
def startRow (b : Byte) : Nat := b.toNat % 32

/-- What the two loops of DRW make of the framebuffer and of the collision `hit` (R141). -/
def State.drawn (s : State) (x y : RegIx) (n : BitVec 4) : Frame × Bool :=
  plotSprite s.mem s.base n.toNat (startColumn (s.reg x)) (startRow (s.reg y)) (s.fb, false)

/-- CLS (R140). UNVERIFIED: that it requests a redraw is decision D25 (log 29). -/
def execCls (s : State) : Result := .next (State.requestRedraw { s with fb := blankFrame }).advance

/-- DRW Vx,Vy,n (R141): the coordinates are read before `VF` is written (UNVERIFIED: decision D33, log
17). -/
def execDrw (x y : RegIx) (n : BitVec 4) (s : State) : Result :=
  complete (.drw x y n) s <|
    match loadFault s.base n.toNat with
    | some f => .error f
    | none =>
      .ok (State.requestRedraw
        (State.setReg { s with fb := (s.drawn x y n).1 } flagReg (flagByte (s.drawn x y n).2))).advance

end Sys2Proof.Machine
end

