-- ==== Sys2Proof/Machine/Input.lean ====
section
/-! DEFINITION. The key instructions and the completion of a key wait (spec/45_input.md R160 to R163), and the input
sample (spec/60_exceptions.md R175). -/

namespace Sys2Proof.Machine

/-- SKP Vx (R160). -/
def execSkp (x : RegIx) (s : State) : Result := .next (s.skipIf (s.keyDown x))

/-- SKNP Vx (R161). -/
def execSknp (x : RegIx) (s : State) : Result := .next (s.skipIf (!s.keyDown x))

/-- LD Vx,K (R162): the wait starts and `PC` stays at the instruction. -/
def execLdVxK (x : RegIx) (s : State) : Result :=
  .next (State.emit { s with wait := some x } (.awaitingKeypress x))

/-- The lowest-numbered key that is newly pressed, if any (R163). UNVERIFIED: that only a new press counts
and that the lowest number wins is decision D19 (log 24). -/
def newlyPressed (old new : Keys) : Option KeyIx :=
  (List.finRange 16).find? fun k => !old[k.val] && new[k.val]

/-- The byte of a key's number. -/
def keyByte (k : KeyIx) : Byte := BitVec.ofNat 8 k.val

/-- Completion of the key wait, with `old` the flags before the sample (R163). -/
def completeKeyWait (old : Keys) (s : State) : State :=
  match s.wait, newlyPressed old s.keys with
  | some r, some k => State.advance { s.setReg r (keyByte k) with wait := none }
  | _, _ => s

/-- The control signal applied at an input sample (R175). -/
inductive Control where
  | quit
  | pauseToggle
  deriving DecidableEq, Repr

/-- The one signal applied: Quit when both are raised (R175). UNVERIFIED: decision D24 (log 28). -/
def controlOf (inp : HostInput) : Option Control :=
  if inp.quit then some .quit else if inp.pauseToggle then some .pauseToggle else none

/-- `RS` after a control signal (R175, R180). -/
def applyControl : Option Control → RunState → RunState
  | some .quit, _ => .stopped
  | some .pauseToggle, .running => .paused
  | some .pauseToggle, .paused => .running
  | some .pauseToggle, .stopped => .stopped
  | none, rs => rs

/-- The input sample: all 16 flags replaced at once, the control signal applied (R175). -/
def inputSample (inp : HostInput) (s : State) : State :=
  { s with keys := inp.keys, rs := applyControl (controlOf inp) s.rs, samples := s.samples + 1 }

end Sys2Proof.Machine
end

