-- ==== Sys2Proof/Machine/MemoryIndex.lean ====
section
/-! DEFINITION. The address register, block store and load, and decimal digits (spec/42_memory_index.md R130 to R135).
`I` is changed by LD I, ADD I and LD F alone (UNVERIFIED: decision D8, log 20). -/

namespace Sys2Proof.Machine

/-- LD I,nnn (R130). -/
def execLdI (nnn : BitVec 12) (s : State) : Result := .next (s.setI (addressOperand nnn)).advance

/-- ADD I,Vx (R131): modulo 65536, no flag. UNVERIFIED: decision D9 (log 21). -/
def execAddI (x : RegIx) (s : State) : Result :=
  .next (s.setI (s.iReg + wordOfByte (s.reg x))).advance

/-- LD F,Vx (R134). -/
def execLdF (x : RegIx) (s : State) : Result := .next (s.setI (glyphAddress (s.lowNibble x))).advance

/-- LD B,Vx (R135). -/
def execLdB (x : RegIx) (s : State) : Result :=
  complete (.ldB x) s <|
    match storeBlock s.base (decimalDigits (s.reg x)) s with
    | .error f => .error f
    | .ok t => .ok t.advance

/-- LD [I],Vx (R132). -/
def execLdMemVx (x : RegIx) (s : State) : Result :=
  complete (.ldMemVx x) s <|
    match storeBlock s.base (s.regsUpTo x) s with
    | .error f => .error f
    | .ok t => .ok t.advance

/-- LD Vx,[I] (R133). -/
def execLdVxMem (x : RegIx) (s : State) : Result :=
  complete (.ldVxMem x) s <|
    match loadFault s.base (x.val + 1) with
    | some f => .error f
    | none => .ok (s.loadRegsUpTo x s.base).advance

end Sys2Proof.Machine
end

