-- ==== Sys2Proof/Machine/TimersSound.lean ====
section
/-! DEFINITION. The timer instructions (spec/44_timers_sound.md R150 to R152), the tick and the tone
(spec/60_exceptions.md R177, R178). -/

namespace Sys2Proof.Machine

/-- LD Vx,DT (R150). -/
def execLdVxDt (x : RegIx) (s : State) : Result := .next (s.setReg x s.dt).advance

/-- LD DT,Vx (R151). -/
def execLdDtVx (x : RegIx) (s : State) : Result := .next (s.setDt (s.reg x)).advance

/-- LD ST,Vx (R152). UNVERIFIED: that every one emits the signal is decision D26 (log 30). -/
def execLdStVx (x : RegIx) (s : State) : Result :=
  .next ((s.setSt (s.reg x)).emit .soundStateChanged).advance

/-- A timer after one tick: one less, and 0 stays 0 (R177). -/
def countDown (b : Byte) : Byte := if b = 0 then 0 else b - 1

/-- The timer tick: both timers (R177). -/
def tick (s : State) : State := { s with dt := countDown s.dt, st := countDown s.st }

/-- The tone output: `ST != 0` (R178). -/
def State.tone (s : State) : Bool := s.st != 0

end Sys2Proof.Machine
end

