-- ==== Sys2Proof/Machine/Cycle.lean ====
section
/-! DEFINITION. The instruction step (spec/40_control_flow.md R100) and the events of the scheduling cycle
(spec/60_exceptions.md R179), and the choice of the next event. -/

namespace Sys2Proof.Machine

/-- The machine has stopped: no event but reset changes it (R173; 10_state.md R31: once the record is
there, no further step changes the state). -/
def State.halted (s : State) : Bool := s.rs == .stopped || s.fault.isSome

/-- An instruction step is enabled (R100): Running, no key wait, no fault. -/
def State.enabled (s : State) : Bool := s.rs == .running && s.wait.isNone && s.fault.isNone

/-- The present request (R182): the display sink may now read the framebuffer. -/
def presentRequest (s : State) : State := s.emit .presentRequest

/-- The start of an instruction step: one step of the budget is used up and no output has been made. -/
def beginStep (budget : Nat) (s : State) : State := { s with phase := .batch budget, outputs := [] }

/-- Steps 1 to 6 of the instruction step (R100), after `beginStep`. -/
def fetchDecodeExecute (s : State) : Result :=
  match fetch s with
  | .error f => .next (takeFault f none s)
  | .ok op =>
    match decode op with
    | .error _ => .next (takeFault .unknownOpcode (some op) s)
    | .ok i => exec i s

/-- One instruction step that leaves `budget` steps of the batch (R179 step 6). -/
def instructionStep (budget : Nat) (s : State) : Result := fetchDecodeExecute (beginStep budget s)

/-- The top of a cycle (R179 steps 2 to 5): input sample; then nothing when Stopped; the present request
when Paused, which ends the cycle; key-wait completion and the batch's budget when Running. -/
def topOfCycle (ipc : Nat) (inp : HostInput) (s : State) : State :=
  let t := inputSample inp { s with outputs := [] }
  match t.rs with
  | .stopped => t
  | .paused => presentRequest t
  | .running => { completeKeyWait s.keys t with phase := .batch ipc }

/-- The end of a Running cycle (R179 steps 7 and 8): the tick, then the present request when a redraw was
requested. A cycle that is not Running only ends (log 32). -/
def endOfCycle (s : State) : State :=
  let t := { s with phase := .cycleTop, outputs := [] }
  if s.rs = .running then
    if s.redraw then { presentRequest (tick t) with redraw := false } else tick t
  else t

/-- What the machine does next. -/
inductive Event where
  /-- nothing: it has stopped (R179 step 1) -/
  | idle
  /-- the top of a cycle -/
  | top
  /-- an instruction step, leaving this budget -/
  | instruction (budget : Nat)
  /-- the end of a cycle -/
  | close
  deriving DecidableEq, Repr

/-- The next event (R179): `while budget > 0 and WAIT = None and RS = Running` an instruction step, else
the end of the cycle. -/
def nextEvent (s : State) : Event :=
  if s.halted then .idle
  else match s.phase with
    | .cycleTop => .top
    | .batch 0 => .close
    | .batch (n + 1) => if s.enabled then .instruction n else .close

/-- One event of the machine, given the batch length and the input it takes if it is the top of a cycle. -/
def stepWith (ipc : Nat) (inp : HostInput) (s : State) : Result :=
  match nextEvent s with
  | .idle => .next s
  | .top => .next (topOfCycle ipc inp s)
  | .instruction n => instructionStep n s
  | .close => .next (endOfCycle s)

end Sys2Proof.Machine
end

