-- ==== Sys2Proof/Machine/Load.lean ====
section
/-! DEFINITION. Program load (spec/70_reset_and_hazards.md R200, R201), and placing one instruction where the next fetch
reads. -/

namespace Sys2Proof.Machine

/-- `ROM_MAX` (00_scope.md R4). -/
def romMax : Nat := memSize - entry

/-- Reset with a program: the bytes are copied from ENTRY up, unchecked by R56. A program that does not
fit gives no machine (R201). -/
def load (rom : List Byte) : Option State :=
  if rom.length ≤ romMax then
    some { State.reset with mem := State.reset.mem.writeBytes entry rom }
  else none

/-- The phase in which the next event is an instruction step. -/
def instructionPhase : Phase → Phase
  | .batch (n + 1) => .batch (n + 1)
  | _ => .batch 1

/-- A state whose next event is an instruction step that fetches `w` at `PC`: the word's two bytes at `PC`
(R52), the machine Running with no wait and no fault, and a batch under way (R100). Above 4094 there is
no place for a word and memory is left alone. -/
def placeWord (w : Word) (s : State) : State :=
  { s with
    mem := if s.pc.toNat ≤ 4094 then s.mem.writeBytes s.pc.toNat [highByte w, lowByte w] else s.mem
    rs := .running
    wait := none
    fault := none
    phase := instructionPhase s.phase }

end Sys2Proof.Machine
end

