-- ==== Sys2Proof/Machine/Step.lean ====
section
/-! DEFINITION. One step of the machine is one event of the scheduling cycle (spec/60_exceptions.md R179; log 1). -/

namespace Sys2Proof.Machine

/-- One event, with the batch length and the host's next input left open (00_scope.md R8; logs 2, 3). -/
def step (s : State) : Host.Outcome State Fault Refusal :=
  Sys2Proof.Machine.stepWith Config.ipc (Config.hostInput s.samples) s

/-- `s` with the instruction the opcode table numbers `w` placed at `PC` and about to be fetched (log 31). -/
def State.withFetchWord (s : State) (nbits w : Nat) : State :=
  Sys2Proof.Machine.placeWord (tableWord nbits w) s

end Sys2Proof.Machine
end

