-- ==== Sys2Proof/Machine/WholeCycle.lean ====
section
/-! DEFINITION. A whole scheduling cycle as one function, written from the pseudocode of spec/60_exceptions.md R179
apart from the events `stepWith` takes one at a time, so that each checks the other. It says nothing of the phase. -/

namespace Sys2Proof.Machine

/-- The state after an instruction step that answers a next state. -/
def afterStep (s : State) : State :=
  match fetchDecodeExecute s with
  | .next t => t
  | .fault _ => s
  | .refused _ => s

/-- `while budget > 0 and WAIT = None and RS = Running`: one instruction step (R179 step 6). -/
def runBatch : Nat → State → State
  | 0, s => s
  | n + 1, s => if s.enabled then runBatch n (afterStep s) else s

/-- Steps 7 and 8 of R179. -/
def finishCycle (s : State) : State :=
  match s.rs with
  | .running =>
    let t := tick s
    if t.redraw then { presentRequest t with redraw := false } else t
  | _ => s

/-- One cycle (R179), given `IPC` and the host's input. -/
def wholeCycle (ipc : Nat) (inp : HostInput) (s : State) : State :=
  match s.rs with
  | .stopped => s
  | _ =>
    let t := inputSample inp s
    match t.rs with
    | .stopped => t
    | .paused => presentRequest t
    | .running => finishCycle (runBatch ipc (completeKeyWait s.keys t))

end Sys2Proof.Machine
end

