-- ==== Sys2Proof/Safety.lean ====
section
/-! DEFINITION. The terms claims are stated in: what an instruction writes, what a sprite covers, and the invariant of
a safe run. -/

namespace Sys2Proof.Machine

/-- The instructions that store to `MEM` (spec/20_memory.md R50). -/
def storesToMemory : Instr → Bool
  | .ldB _ => true
  | .ldMemVx _ => true
  | _ => false

/-- The six instructions that write `VF` as a side effect (spec/10_state.md R20, R21). -/
def writesFlag : Instr → Bool
  | .addReg _ _ => true
  | .subReg _ _ => true
  | .shr _ _ => true
  | .subnReg _ _ => true
  | .shl _ _ => true
  | .drw _ _ _ => true
  | _ => false

/-- The registers an instruction names as destinations (R20's rows `write V[x]` and `write V[0] to V[x]`);
LD Vx,K writes its register at completion, not in its own step. -/
def namesDestination : Instr → RegIx → Bool
  | .ldImm x _, j => j == x
  | .addImm x _, j => j == x
  | .ldReg x _, j => j == x
  | .orReg x _, j => j == x
  | .andReg x _, j => j == x
  | .xorReg x _, j => j == x
  | .addReg x _, j => j == x
  | .subReg x _, j => j == x
  | .shr x _, j => j == x
  | .subnReg x _, j => j == x
  | .shl x _, j => j == x
  | .rnd x _, j => j == x
  | .ldVxDt x, j => j == x
  | .ldVxMem x, j => decide (j ≤ x)
  | _, _ => false

/-- The instructions that write `I` (R22). -/
def writesI : Instr → Bool
  | .ldI _ => true
  | .addI _ => true
  | .ldF _ => true
  | _ => false

/-- How many consecutive bytes from `I` up an instruction touches (R50). -/
def bytesTouched : Instr → Nat
  | .drw _ _ n => n.toNat
  | .ldB _ => 3
  | .ldMemVx x => x.val + 1
  | .ldVxMem x => x.val + 1
  | _ => 0

/-- The instructions that leave `PC` elsewhere than at `a + 2` (R23). -/
def setsPc : Instr → Bool
  | .ret => true
  | .jp _ => true
  | .call _ => true
  | .jpV0 _ => true
  | .seImm _ _ => true
  | .sneImm _ _ => true
  | .seReg _ _ => true
  | .sneReg _ _ => true
  | .skp _ => true
  | .sknp _ => true
  | .ldVxK _ => true
  | _ => false

/-- The word in memory at an address, high byte first (20_memory.md R52). -/
def State.wordAt (s : State) (a : Nat) : Word := wordOfBytes (s.mem.read a) (s.mem.read (a + 1))

/-- Whether the sprite of a DRW in state `s` has a set bit at row `r` and column `c` (43_display.md R141). -/
def State.spriteCovers (s : State) (x y : RegIx) (n : BitVec 4) (r c : Nat) : Bool :=
  let x0 := (s.reg x).toNat % 64
  let y0 := (s.reg y).toNat % 32
  decide (y0 ≤ r ∧ r < y0 + n.toNat ∧ x0 ≤ c ∧ c < x0 + 8) &&
    (s.mem.read (s.iReg.toNat + (r - y0))).getLsbD (7 - (c - x0))

/-- The state without the two fields that only say where in a cycle the machine is and what the latest event
put out. -/
def State.bare (s : State) : State := { s with phase := .cycleTop, outputs := [] }

/-- A fault record is there only when the machine has stopped (10_state.md R31). -/
def State.faultStops (s : State) : Prop := s.fault ≠ none → s.rs = .stopped

/-- A Paused machine is at the top of a cycle: no batch runs while Paused (60_exceptions.md R179). -/
def State.pausedAtTop (s : State) : Prop := s.rs = .paused → s.phase = .cycleTop

/-- No redraw is pending at the top of a cycle (R179 step 8). -/
def State.redrawServed (s : State) : Prop := s.phase = .cycleTop → s.redraw = false

/-- While a key is awaited, `PC` is held at the LD Vx,K that awaits it (45_input.md R162). -/
def State.waitHeld (s : State) : Prop :=
  ∀ r, s.wait = some r → s.pc.toNat ≤ 4094 ∧ s.wordAt s.pc.toNat = encode (.ldVxK r)

/-- Every valid stack entry is at most 4096 (40_control_flow.md R101's corner case). -/
def State.stackBounded (s : State) : Prop :=
  ∀ k : Fin 16, k.val < s.sp.val → (s.stack[k.val]).toNat ≤ 4096

/-- `PC` is at most 4350: no run wraps it (10_state.md R23). -/
def State.pcBounded (s : State) : Prop := s.pc.toNat ≤ 4350

/-- The bytes below ENTRY are the reset contents (20_memory.md R51, R56). -/
def State.reservedIntact (s : State) : Prop :=
  ∀ a, a < entry → s.mem.read a = Memory.resetByte a

/-- The invariant of every run from reset or from a program load. -/
structure State.Inv (s : State) : Prop where
  memory : s.mem.wf
  fault : s.faultStops
  paused : s.pausedAtTop
  redraw : s.redrawServed
  wait : s.waitHeld
  stack : s.stackBounded
  pc : s.pcBounded
  reserved : s.reservedIntact

end Sys2Proof.Machine
end

