-- ==== Sys2Proof/Certificates/Slice0/Obligations.lean ====
section
/-! DEFINITION. What is claimed of the machine, each claim from the numbered rules of spec/. -/

open Sys2Proof Sys2Proof.Machine

/-- R75 with R72 and R73: every instruction, with every operand at every value its field admits, is what the decoder reads from
its word. -/
def Obligations.DecodeGivesBackEncoded : Prop :=
  ∀ i : Instr, decode (encode i) = .ok i

/-- R70, R71, R81: a decoded word is the word of the instruction decoded, so no bit of it is dropped, the unused `y` of SHR and
SHL included. It is why a fault record's word (log 36) is the word fetched. -/
def Obligations.EncodeGivesBackDecoded : Prop :=
  ∀ (op : Word) (i : Instr), decode op = .ok i → encode i = op

/-- R75: 34 rows, pairwise disjoint; a word is decoded exactly when it selects a row, and then to an instruction of that row. -/
def Obligations.DecoderFollowsOpcodeMap : Prop :=
  opcodeTable.length = 34 ∧
  opcodeTable.Pairwise (fun r q => ∀ op : Word, ¬(r.selects op = true ∧ q.selects op = true)) ∧
  ∀ op : Word,
    ((∃ i, decode op = .ok i) ↔ ∃ r ∈ opcodeTable, op &&& r.mask = r.pattern) ∧
    ∀ i, decode op = .ok i → ∃ r, i.row = some r ∧ op &&& r.mask = r.pattern

/-- R76's table of unknown words, by family and selector. -/
def Obligations.UnknownWordsAreTheListed : Prop :=
  ∀ op : Word,
    decode op = .error (.unknownOpcode op) ↔
      (op.toNat / 4096 = 0x0 ∧ op.toNat ≠ 0x00E0 ∧ op.toNat ≠ 0x00EE) ∨
      (op.toNat / 4096 = 0x5 ∧ op.toNat % 16 ≠ 0) ∨
      (op.toNat / 4096 = 0x8 ∧ op.toNat % 16 ∈ [0x8, 0x9, 0xA, 0xB, 0xC, 0xD, 0xF]) ∨
      (op.toNat / 4096 = 0x9 ∧ op.toNat % 16 ≠ 0) ∨
      (op.toNat / 4096 = 0xE ∧ op.toNat % 256 ∉ [0x9E, 0xA1]) ∨
      (op.toNat / 4096 = 0xF ∧
        op.toNat % 256 ∉ [0x07, 0x0A, 0x15, 0x18, 0x1E, 0x29, 0x33, 0x55, 0x65])

/-- R71: each field of the decoder's record is the bits the rule names, in the word and in its two bytes. -/
def Obligations.FieldsAreTheNamedBits : Prop :=
  ∀ op : Word,
    (fieldsOf op).op = op ∧
    (∀ j, j < 4 → (fieldsOf op).family.getLsbD j = op.getLsbD (12 + j)) ∧
    (∀ j, j < 4 → (fieldsOf op).x.val.testBit j = op.getLsbD (8 + j)) ∧
    (∀ j, j < 4 → (fieldsOf op).y.val.testBit j = op.getLsbD (4 + j)) ∧
    (∀ j, j < 4 → (fieldsOf op).n.getLsbD j = op.getLsbD j) ∧
    (∀ j, j < 8 → (fieldsOf op).nn.getLsbD j = op.getLsbD j) ∧
    (∀ j, j < 12 → (fieldsOf op).nnn.getLsbD j = op.getLsbD j) ∧
    ∀ b0 b1 : Byte, op = wordOfBytes b0 b1 →
      (∀ j, j < 4 → (fieldsOf op).family.getLsbD j = b0.getLsbD (4 + j)) ∧
      (∀ j, j < 4 → (fieldsOf op).x.val.testBit j = b0.getLsbD j) ∧
      (∀ j, j < 4 → (fieldsOf op).y.val.testBit j = b1.getLsbD (4 + j)) ∧
      (∀ j, j < 4 → (fieldsOf op).n.getLsbD j = b1.getLsbD j) ∧
      (fieldsOf op).nn = b1 ∧
      (∀ j, j < 8 → (fieldsOf op).nnn.getLsbD j = b1.getLsbD j) ∧
      (∀ j, j < 4 → (fieldsOf op).nnn.getLsbD (8 + j) = b0.getLsbD j)

/-- A word of each family, written out from its pattern in R75, decodes to its instruction. -/
def Obligations.WrittenOutWordsDecode : Prop :=
  decode 0b0000000011100000#16 = .ok .cls ∧
  decode 0b0001001000110100#16 = .ok (.jp 0x234#12) ∧
  decode 0b1000001101000100#16 = .ok (.addReg 3 4) ∧
  decode 0b1101000000010101#16 = .ok (.drw 0 1 5#4) ∧
  decode 0b1110001010011110#16 = .ok (.skp 2) ∧
  decode 0b1111001100000111#16 = .ok (.ldVxDt 3) ∧
  decode 0b1111001001010101#16 = .ok (.ldMemVx 2)

/-- R100: at an enabled instruction step whose word at `PC` decodes to `i`, the step is `exec i`, on the state in which only the
model's own bookkeeping has moved on: one step of the budget is used and no output has been made (log 1, DEDUCED; log 7,
DESIGN CHOICE). -/
def Obligations.StepRunsDecodedInstruction : Prop :=
  ∀ (s : State) (n : Nat) (i : Instr),
    s.phase = .batch (n + 1) → s.rs = .running → s.wait = none → s.fault = none →
    s.pc.toNat ≤ 4094 →
    decode (wordOfBytes (s.mem.read s.pc.toNat) (s.mem.read (s.pc.toNat + 1))) = .ok i →
    step s = exec i { s with phase := .batch n, outputs := [] }

/-- R171 with R173: an instruction step that faults has done nothing but write the record, stop the machine and emit Halted; the
record names the address fetched from and the word fetched, none for a fetch fault; no later step changes anything, so neither the
rest of the batch nor the tick nor the present request happens (the spec's decision D23, log 27). The model's choice: `phase` counts
one step of the budget used (log 1, DEDUCED) and `outputs`, emptied at the start of the step, holds Halted alone (log 7, DESIGN
CHOICE). -/
def Obligations.FaultDiscardsTheStep : Prop :=
  ∀ (s t : State) (n : Nat) (r : FaultRecord),
    s.phase = .batch (n + 1) → s.rs = .running → s.wait = none → s.fault = none →
    step s = .next t → t.fault = some r →
    t = { s with
      fault := some r, rs := .stopped, phase := .batch n, outputs := [.halted r.cause] } ∧
    r.pc = s.pc ∧
    r.opcode = (if r.cause.code = 4 then none
      else some (wordOfBytes (s.mem.read s.pc.toNat) (s.mem.read (s.pc.toNat + 1)))) ∧
    step t = .next t

/-- R170: the codes, when an instruction step raises each of the six faults and with which `info`, and what every record holds
beside its code. -/
def Obligations.FaultsAreRaisedExactlyWhen : Prop :=
  (∀ a : Nat, Fault.code .unknownOpcode = 1 ∧ Fault.code .stackOverflow = 2 ∧
    Fault.code .stackUnderflow = 3 ∧ Fault.code (.fetchOutOfRange a) = 4 ∧
    Fault.code (.dataOutOfRange a) = 5 ∧ Fault.code (.reservedWrite a) = 6) ∧
  ∀ (s : State) (n : Nat),
    s.phase = .batch (n + 1) → s.rs = .running → s.wait = none → s.fault = none →
    ∃ t, step s = .next t ∧
      (∀ r, t.fault = some r → r.pc = s.pc ∧
        r.opcode = if r.cause.code = 4 then none else some (s.wordAt s.pc.toNat)) ∧
      (∀ f, (∃ r, t.fault = some r ∧ r.cause = f) ↔
        match f with
        | .fetchOutOfRange a => 4094 < s.pc.toNat ∧ a = s.pc.toNat
        | .unknownOpcode => s.pc.toNat ≤ 4094 ∧ ∃ e, decode (s.wordAt s.pc.toNat) = .error e
        | .stackOverflow => s.pc.toNat ≤ 4094 ∧
            (∃ nnn, decode (s.wordAt s.pc.toNat) = .ok (.call nnn)) ∧ s.sp.val = 16
        | .stackUnderflow => s.pc.toNat ≤ 4094 ∧
            decode (s.wordAt s.pc.toNat) = .ok .ret ∧ s.sp.val = 0
        | .dataOutOfRange a => s.pc.toNat ≤ 4094 ∧
            ∃ i, decode (s.wordAt s.pc.toNat) = .ok i ∧ 0 < bytesTouched i ∧
              4095 < a ∧ s.iReg.toNat ≤ a ∧ a < s.iReg.toNat + bytesTouched i ∧
              ∀ b, 4095 < b → s.iReg.toNat ≤ b → b < s.iReg.toNat + bytesTouched i → a ≤ b
        | .reservedWrite a => s.pc.toNat ≤ 4094 ∧
            ∃ i, decode (s.wordAt s.pc.toNat) = .ok i ∧ storesToMemory i = true ∧
              s.iReg.toNat < 512 ∧ a = s.iReg.toNat)

/-- R173 and R31's last sentence: a Stopped machine, or one with a fault record, is changed by no event, whatever the host's input
and the batch length (logs 2, 3). The model's choice: a machine that has stopped steps to itself (log 5, DEDUCED), and so does a state
with a record and an `RS` other than Stopped, which no run reaches (log 32, DEDUCED). -/
def Obligations.StoppedIsTerminal : Prop :=
  ∀ s : State, s.rs = .stopped ∨ s.fault ≠ none →
    step s = .next s ∧ ∀ (ipc : Nat) (inp : HostInput), stepWith ipc inp s = .next s

/-- From every state the machine has a next state: the six faults are states (R171), not ends of the model. -/
def Obligations.EveryStepAnswersNext : Prop :=
  ∀ s : State, ∃ t, step s = .next t

/-- R102 and R108: both jumps, their words, and that nothing but `PC` changes. -/
def Obligations.JumpsSetPc : Prop :=
  ∀ (nnn : BitVec 12) (s : State),
    (encode (.jp nnn)).toNat = 0x1000 + nnn.toNat ∧
    (encode (.jpV0 nnn)).toNat = 0xB000 + nnn.toNat ∧
    (∃ t, exec (.jp nnn) s = .next t ∧ t.pc.toNat = nnn.toNat ∧ t = { s with pc := t.pc }) ∧
    (∃ t, exec (.jpV0 nnn) s = .next t ∧ t.pc.toNat = nnn.toNat + (s.reg 0).toNat ∧
      t = { s with pc := t.pc })

/-- R103: CALL pushes the address after itself and jumps; with a full stack it faults and changes nothing else. -/
def Obligations.CallPushesOrOverflows : Prop :=
  ∀ (nnn : BitVec 12) (s : State),
    (encode (.call nnn)).toNat = 0x2000 + nnn.toNat ∧
    (s.sp.val < 16 → ∃ t, exec (.call nnn) s = .next t ∧
      t.pc.toNat = nnn.toNat ∧ t.sp.val = s.sp.val + 1 ∧
      (∀ k : Fin 16, t.stack[k.val] = if k.val = s.sp.val then s.pc + 2 else s.stack[k.val]) ∧
      t = { s with pc := t.pc, sp := t.sp, stack := t.stack }) ∧
    (s.sp.val = 16 → exec (.call nnn) s = .next { s with
      fault := some ⟨.stackOverflow, s.pc, some (encode (.call nnn))⟩
      rs := .stopped
      outputs := s.outputs ++ [.halted .stackOverflow] })

/-- R101: RET pops; with an empty stack it faults and changes nothing else; after a CALL it returns to the address after the CALL
with the depth and the valid entries as before. -/
def Obligations.RetPopsOrUnderflows : Prop :=
  (encode .ret).toNat = 0x00EE ∧
  (∀ s : State,
    (∀ h : 0 < s.sp.val, ∃ t, exec .ret s = .next t ∧
      t.pc = s.stack[s.sp.val - 1] ∧ t.sp.val = s.sp.val - 1 ∧
      t = { s with pc := t.pc, sp := t.sp }) ∧
    (s.sp.val = 0 → exec .ret s = .next { s with
      fault := some ⟨.stackUnderflow, s.pc, some (encode .ret)⟩
      rs := .stopped
      outputs := s.outputs ++ [.halted .stackUnderflow] })) ∧
  (∀ (nnn : BitVec 12) (s : State), s.sp.val < 16 →
    ∃ t u, exec (.call nnn) s = .next t ∧ exec .ret t = .next u ∧
      u.pc = s.pc + 2 ∧ u.sp = s.sp ∧
      (∀ k : Fin 16, k.val < s.sp.val → u.stack[k.val] = s.stack[k.val]))

/-- R104, R105, R106, R107: the four register skips, their words, and that nothing but `PC` changes. -/
def Obligations.RegisterSkipsAddTwo : Prop :=
  ∀ (x y : RegIx) (nn : Byte) (s : State),
    (encode (.seImm x nn)).toNat = 0x3000 + x.val * 256 + nn.toNat ∧
    (encode (.sneImm x nn)).toNat = 0x4000 + x.val * 256 + nn.toNat ∧
    (encode (.seReg x y)).toNat = 0x5000 + x.val * 256 + y.val * 16 ∧
    (encode (.sneReg x y)).toNat = 0x9000 + x.val * 256 + y.val * 16 ∧
    exec (.seImm x nn) s =
      .next { s with pc := if s.reg x = nn then s.pc + 4 else s.pc + 2 } ∧
    exec (.sneImm x nn) s =
      .next { s with pc := if s.reg x ≠ nn then s.pc + 4 else s.pc + 2 } ∧
    exec (.seReg x y) s =
      .next { s with pc := if s.reg x = s.reg y then s.pc + 4 else s.pc + 2 } ∧
    exec (.sneReg x y) s =
      .next { s with pc := if s.reg x ≠ s.reg y then s.pc + 4 else s.pc + 2 }

/-- R160, R161: the two key skips test the key named by the low nibble (the spec's decision D18); nothing but `PC` changes. -/
def Obligations.KeySkipsAddTwo : Prop :=
  ∀ (x : RegIx) (s : State) (k : KeyIx), k.val = (s.reg x).toNat % 16 →
    (encode (.skp x)).toNat = 0xE09E + x.val * 256 ∧
    (encode (.sknp x)).toNat = 0xE0A1 + x.val * 256 ∧
    exec (.skp x) s =
      .next { s with pc := if s.keys[k.val] = true then s.pc + 4 else s.pc + 2 } ∧
    exec (.sknp x) s =
      .next { s with pc := if s.keys[k.val] = false then s.pc + 4 else s.pc + 2 }

/-- R110 to R115: the six instructions that write one register and no flag. Every other register, `VF` among them unless it is
`V[x]`, and everything but `PC` is kept. -/
def Obligations.SetCopyAndLogicWriteOneRegister : Prop :=
  ∀ (x y : RegIx) (nn : Byte) (s : State),
    (encode (.ldImm x nn)).toNat = 0x6000 + x.val * 256 + nn.toNat ∧
    (encode (.addImm x nn)).toNat = 0x7000 + x.val * 256 + nn.toNat ∧
    (encode (.ldReg x y)).toNat = 0x8000 + x.val * 256 + y.val * 16 ∧
    (encode (.orReg x y)).toNat = 0x8001 + x.val * 256 + y.val * 16 ∧
    (encode (.andReg x y)).toNat = 0x8002 + x.val * 256 + y.val * 16 ∧
    (encode (.xorReg x y)).toNat = 0x8003 + x.val * 256 + y.val * 16 ∧
    (∀ i, i ∈ [Instr.ldImm x nn, .addImm x nn, .ldReg x y, .orReg x y, .andReg x y, .xorReg x y] →
      ∃ t, exec i s = .next t ∧ t = { s with v := t.v, pc := s.pc + 2 } ∧
        (∀ j, j ≠ x → t.reg j = s.reg j) ∧
        (i = .ldImm x nn → t.reg x = nn) ∧
        (i = .addImm x nn → (t.reg x).toNat = ((s.reg x).toNat + nn.toNat) % 256) ∧
        (i = .ldReg x y → t.reg x = s.reg y) ∧
        (i = .orReg x y → ∀ b, b < 8 →
          (t.reg x).getLsbD b = ((s.reg x).getLsbD b || (s.reg y).getLsbD b)) ∧
        (i = .andReg x y → ∀ b, b < 8 →
          (t.reg x).getLsbD b = ((s.reg x).getLsbD b && (s.reg y).getLsbD b)) ∧
        (i = .xorReg x y → ∀ b, b < 8 →
          (t.reg x).getLsbD b = ((s.reg x).getLsbD b ^^ (s.reg y).getLsbD b)))

/-- R116 with R123: ADD Vx,Vy for every `x` and `y`, 15 included; the carry is what `VF` ends with, and the sum is what `V[x]` ends
with unless it is `VF`. -/
def Obligations.AddWritesSumThenCarry : Prop :=
  ∀ (x y : RegIx) (s : State),
    (encode (.addReg x y)).toNat = 0x8004 + x.val * 256 + y.val * 16 ∧
    ∃ t, exec (.addReg x y) s = .next t ∧ t = { s with v := t.v, pc := s.pc + 2 } ∧
      (x ≠ 15 → (t.reg x).toNat = ((s.reg x).toNat + (s.reg y).toNat) % 256) ∧
      (t.reg 15).toNat = (if (s.reg x).toNat + (s.reg y).toNat > 255 then 1 else 0) ∧
      (∀ j, j ≠ x → j ≠ 15 → t.reg j = s.reg j)

/-- R117, R119 with R123: both subtractions for every `x` and `y`; `VF` ends with no-borrow, 1 for equal operands. -/
def Obligations.SubtractionsWriteDifferenceThenNoBorrow : Prop :=
  ∀ (x y : RegIx) (s : State),
    (encode (.subReg x y)).toNat = 0x8005 + x.val * 256 + y.val * 16 ∧
    (encode (.subnReg x y)).toNat = 0x8007 + x.val * 256 + y.val * 16 ∧
    (∃ t, exec (.subReg x y) s = .next t ∧ t = { s with v := t.v, pc := s.pc + 2 } ∧
      (x ≠ 15 → ((t.reg x).toNat : Int) = ((s.reg x).toNat - (s.reg y).toNat : Int) % 256) ∧
      (t.reg 15).toNat = (if (s.reg x).toNat ≥ (s.reg y).toNat then 1 else 0) ∧
      (∀ j, j ≠ x → j ≠ 15 → t.reg j = s.reg j)) ∧
    (∃ t, exec (.subnReg x y) s = .next t ∧ t = { s with v := t.v, pc := s.pc + 2 } ∧
      (x ≠ 15 → ((t.reg x).toNat : Int) = ((s.reg y).toNat - (s.reg x).toNat : Int) % 256) ∧
      (t.reg 15).toNat = (if (s.reg y).toNat ≥ (s.reg x).toNat then 1 else 0) ∧
      (∀ j, j ≠ x → j ≠ 15 → t.reg j = s.reg j))

/-- R118, R120 with R81 and R123: both shifts act on `V[x]` whatever `y` is (the spec's decision D6); `VF` ends with the bit shifted
out. -/
def Obligations.ShiftsWriteResultThenBitOut : Prop :=
  ∀ (x y : RegIx) (s : State),
    (encode (.shr x y)).toNat = 0x8006 + x.val * 256 + y.val * 16 ∧
    (encode (.shl x y)).toNat = 0x800E + x.val * 256 + y.val * 16 ∧
    (∃ t, exec (.shr x y) s = .next t ∧ t = { s with v := t.v, pc := s.pc + 2 } ∧
      (x ≠ 15 → (t.reg x).toNat = (s.reg x).toNat / 2) ∧
      (t.reg 15).toNat = (s.reg x).toNat % 2 ∧
      (∀ j, j ≠ x → j ≠ 15 → t.reg j = s.reg j)) ∧
    (∃ t, exec (.shl x y) s = .next t ∧ t = { s with v := t.v, pc := s.pc + 2 } ∧
      (x ≠ 15 → (t.reg x).toNat = (s.reg x).toNat * 2 % 256) ∧
      (t.reg 15).toNat = (s.reg x).toNat / 128 ∧
      (∀ j, j ≠ x → j ≠ 15 → t.reg j = s.reg j))

/-- R121: RND stores a drawn byte masked by `nn`; for any drawn byte the bits clear in `nn` are clear after, and under `nn = 0xFF` the
byte itself is stored. The model's choice (log 4, DESIGN CHOICE): the byte is the free value `Config.draw8` of the number of bytes
drawn so far, and each RND counts one draw. -/
def Obligations.RandomByteIsMasked : Prop :=
  ∀ (x : RegIx) (nn : Byte) (s : State),
    (encode (.rnd x nn)).toNat = 0xC000 + x.val * 256 + nn.toNat ∧
    (∃ t, exec (.rnd x nn) s = .next t ∧
      t = { s with v := t.v, pc := s.pc + 2, draws := s.draws + 1 } ∧
      t.reg x = Config.draw8 s.draws &&& nn ∧ (∀ j, j ≠ x → t.reg j = s.reg j)) ∧
    (∀ r : Byte,
      (∀ b, b < 8 → nn.getLsbD b = false → ((randomMasked r x nn s).reg x).getLsbD b = false) ∧
      (nn = 0x00#8 → (randomMasked r x nn s).reg x = 0) ∧
      (nn = 0xFF#8 → (randomMasked r x nn s).reg x = r)) ∧
    exec (.rnd x nn) s = .next (randomMasked (Config.draw8 s.draws) x nn s)

/-- R20's table and R21: an instruction step changes no register but those the instruction names as destinations and, for the six
flag writers, `VF`; a flag writer that completes leaves `VF` at 0 or 1. -/
def Obligations.OnlyDestinationsAndFlagsChange : Prop :=
  ∀ (i : Instr) (s t : State), exec i s = .next t →
    (∀ j, namesDestination i j = false → ¬(writesFlag i = true ∧ j = 15) → t.reg j = s.reg j) ∧
    (writesFlag i = true → t.pc ≠ s.pc → t.reg 15 = 0 ∨ t.reg 15 = 1)

/-- R22, R50, R100: `I` is written by three instructions alone; memory by two, and then only in the block of bytes from `I` up that
the instruction touches; every other byte of memory reads as before. -/
def Obligations.AddressRegisterAndMemoryFrame : Prop :=
  ∀ (i : Instr) (s t : State), exec i s = .next t →
    (writesI i = false → t.iReg = s.iReg) ∧
    (storesToMemory i = false → ∀ a, t.mem.read a = s.mem.read a) ∧
    (storesToMemory i = true →
      ∀ a, ¬(s.iReg.toNat ≤ a ∧ a < s.iReg.toNat + bytesTouched i) →
        t.mem.read a = s.mem.read a)

/-- R100's closing sentences, R25, R26, R27, R28, R30, R32: what an instruction may change of the control state. `KEYS` never; `RS`
and `FAULT` only by a fault; each other item only by the instructions its rule names. -/
def Obligations.ControlStateFrame : Prop :=
  ∀ (i : Instr) (s t : State), exec i s = .next t →
    t.keys = s.keys ∧ t.phase = s.phase ∧ t.samples = s.samples ∧
    ((t.rs = s.rs ∧ t.fault = s.fault) ∨
      (t.rs = .stopped ∧ ∃ r, t.fault = some r ∧ r.pc = s.pc ∧ t.pc = s.pc)) ∧
    ((∀ x, i ≠ .ldDtVx x) → t.dt = s.dt) ∧
    ((∀ x, i ≠ .ldStVx x) → t.st = s.st) ∧
    ((∀ x, i ≠ .ldVxK x) → t.wait = s.wait) ∧
    (i ≠ .cls → (∀ x y n, i ≠ .drw x y n) → t.fb = s.fb ∧ t.redraw = s.redraw) ∧
    ((∀ nnn, i ≠ .call nnn) → t.stack = s.stack ∧ (i ≠ .ret → t.sp = s.sp)) ∧
    ((∀ x nn, i ≠ .rnd x nn) → t.draws = s.draws)

/-- R23's first and last rows: every instruction that sets no `PC` of its own leaves it at `a + 2`, or at `a` when it faults. -/
def Obligations.PlainInstructionsAdvancePc : Prop :=
  ∀ (i : Instr) (s t : State), setsPc i = false → s.fault = none → exec i s = .next t →
    (t.fault = none → t.pc = s.pc + 2) ∧ (t.fault ≠ none → t.pc = s.pc)

/-- R130, R131, R134: the three writers of `I`, their words, and that nothing but `I` and `PC` changes. -/
def Obligations.AddressRegisterWrites : Prop :=
  ∀ (nnn : BitVec 12) (x : RegIx) (s : State),
    (encode (.ldI nnn)).toNat = 0xA000 + nnn.toNat ∧
    (encode (.addI x)).toNat = 0xF01E + x.val * 256 ∧
    (encode (.ldF x)).toNat = 0xF029 + x.val * 256 ∧
    (∃ t, exec (.ldI nnn) s = .next t ∧ t = { s with iReg := t.iReg, pc := s.pc + 2 } ∧
      t.iReg.toNat = nnn.toNat) ∧
    (∃ t, exec (.addI x) s = .next t ∧ t = { s with iReg := t.iReg, pc := s.pc + 2 } ∧
      t.iReg.toNat = (s.iReg.toNat + (s.reg x).toNat) % 65536) ∧
    (∃ t, exec (.ldF x) s = .next t ∧ t = { s with iReg := t.iReg, pc := s.pc + 2 } ∧
      t.iReg.toNat = 0x050 + 5 * ((s.reg x).toNat % 16))

/-- R132: LD [I],Vx in a memory of canonical form (an invariant: MemoryStaysCanonical). It stores `V[0]` to `V[x]` from `I` up, and
every other byte reads as before; above 4095 or below ENTRY it faults with nothing stored. -/
def Obligations.RegistersAreStoredOrFault : Prop :=
  ∀ (x : RegIx) (s : State), s.mem.wf →
    (encode (.ldMemVx x)).toNat = 0xF055 + x.val * 256 ∧
    (512 ≤ s.iReg.toNat → s.iReg.toNat + x.val ≤ 4095 →
      ∃ t, exec (.ldMemVx x) s = .next t ∧ t = { s with mem := t.mem, pc := s.pc + 2 } ∧
        (∀ k : RegIx, k ≤ x → t.mem.read (s.iReg.toNat + k.val) = s.reg k) ∧
        (∀ a, ¬(s.iReg.toNat ≤ a ∧ a ≤ s.iReg.toNat + x.val) → t.mem.read a = s.mem.read a)) ∧
    (4095 < s.iReg.toNat + x.val →
      exec (.ldMemVx x) s = .next { s with
        fault := some ⟨.dataOutOfRange (max s.iReg.toNat 4096), s.pc, some (encode (.ldMemVx x))⟩
        rs := .stopped
        outputs := s.outputs ++ [.halted (.dataOutOfRange (max s.iReg.toNat 4096))] }) ∧
    (s.iReg.toNat < 512 →
      exec (.ldMemVx x) s = .next { s with
        fault := some ⟨.reservedWrite s.iReg.toNat, s.pc, some (encode (.ldMemVx x))⟩
        rs := .stopped
        outputs := s.outputs ++ [.halted (.reservedWrite s.iReg.toNat)] })

/-- R133: LD Vx,[I] loads `V[0]` to `V[x]` from `I` up, below ENTRY as anywhere; above 4095 it faults with no register written. -/
def Obligations.RegistersAreLoadedOrFault : Prop :=
  ∀ (x : RegIx) (s : State),
    (encode (.ldVxMem x)).toNat = 0xF065 + x.val * 256 ∧
    (s.iReg.toNat + x.val ≤ 4095 →
      ∃ t, exec (.ldVxMem x) s = .next t ∧ t = { s with v := t.v, pc := s.pc + 2 } ∧
        (∀ k : RegIx, k ≤ x → t.reg k = s.mem.read (s.iReg.toNat + k.val)) ∧
        (∀ k : RegIx, x < k → t.reg k = s.reg k)) ∧
    (4095 < s.iReg.toNat + x.val →
      exec (.ldVxMem x) s = .next { s with
        fault := some ⟨.dataOutOfRange (max s.iReg.toNat 4096), s.pc, some (encode (.ldVxMem x))⟩
        rs := .stopped
        outputs := s.outputs ++ [.halted (.dataOutOfRange (max s.iReg.toNat 4096))] })

/-- R135: LD B,Vx in a memory of canonical form: hundreds, tens and ones at `I`, `I + 1` and `I + 2`, every other byte as before;
above 4095 or below ENTRY it faults with nothing stored. -/
def Obligations.DecimalDigitsAreStoredOrFault : Prop :=
  ∀ (x : RegIx) (s : State), s.mem.wf →
    (encode (.ldB x)).toNat = 0xF033 + x.val * 256 ∧
    (512 ≤ s.iReg.toNat → s.iReg.toNat + 2 ≤ 4095 →
      ∃ t, exec (.ldB x) s = .next t ∧ t = { s with mem := t.mem, pc := s.pc + 2 } ∧
        (t.mem.read s.iReg.toNat).toNat = (s.reg x).toNat / 100 ∧
        (t.mem.read (s.iReg.toNat + 1)).toNat = (s.reg x).toNat / 10 % 10 ∧
        (t.mem.read (s.iReg.toNat + 2)).toNat = (s.reg x).toNat % 10 ∧
        (∀ a, ¬(s.iReg.toNat ≤ a ∧ a ≤ s.iReg.toNat + 2) → t.mem.read a = s.mem.read a)) ∧
    (4095 < s.iReg.toNat + 2 →
      exec (.ldB x) s = .next { s with
        fault := some ⟨.dataOutOfRange (max s.iReg.toNat 4096), s.pc, some (encode (.ldB x))⟩
        rs := .stopped
        outputs := s.outputs ++ [.halted (.dataOutOfRange (max s.iReg.toNat 4096))] }) ∧
    (s.iReg.toNat < 512 →
      exec (.ldB x) s = .next { s with
        fault := some ⟨.reservedWrite s.iReg.toNat, s.pc, some (encode (.ldB x))⟩
        rs := .stopped
        outputs := s.outputs ++ [.halted (.reservedWrite s.iReg.toNat)] })

/-- R60 (an inference of the spec from R58 and R100): a store over the next instruction is seen by the next fetch. -/
def Obligations.StoredWordIsFetchedNext : Prop :=
  ∀ (x : RegIx) (s : State), s.mem.wf → 1 ≤ x.val →
    512 ≤ s.iReg.toNat → s.iReg.toNat + x.val ≤ 4095 → s.iReg.toNat = s.pc.toNat + 2 →
    ∃ t, exec (.ldMemVx x) s = .next t ∧ fetch t = .ok (wordOfBytes (s.reg 0) (s.reg 1))

/-- R140: CLS clears every pixel, latches the redraw and signals it; nothing else but `PC` changes. -/
def Obligations.ClsClearsTheFramebuffer : Prop :=
  (encode .cls).toNat = 0x00E0 ∧
  ∀ s : State, ∃ t, exec .cls s = .next t ∧
    t = { s with
      fb := t.fb, redraw := true, outputs := s.outputs ++ [.redrawRequested], pc := s.pc + 2 } ∧
    ∀ r c, pixel t.fb r c = false

/-- R141: DRW for every `x`, `y` and `n`, 15 and 0 included: each pixel of the grid becomes its exclusive or with the sprite's bit
there, `VF` is the collision, the redraw is latched and signalled, nothing else but `PC` changes; with a sprite byte above 4095 it
faults before any change. -/
def Obligations.DrwDrawsOrFaults : Prop :=
  ∀ (x y : RegIx) (n : BitVec 4) (s : State),
    (encode (.drw x y n)).toNat = 0xD000 + x.val * 256 + y.val * 16 + n.toNat ∧
    (n.toNat = 0 ∨ s.iReg.toNat + n.toNat - 1 ≤ 4095 →
      ∃ t, exec (.drw x y n) s = .next t ∧
        t = { s with
          v := t.v, fb := t.fb, redraw := true, outputs := s.outputs ++ [.redrawRequested]
          pc := s.pc + 2 } ∧
        (∀ r c, r < 32 → c < 64 →
          pixel t.fb r c = (pixel s.fb r c ^^ s.spriteCovers x y n r c)) ∧
        (t.reg 15 = 1 ∨ t.reg 15 = 0) ∧
        (t.reg 15 = 1 ↔ ∃ r c, r < 32 ∧ c < 64 ∧
          pixel s.fb r c = true ∧ s.spriteCovers x y n r c = true) ∧
        (∀ j, j ≠ 15 → t.reg j = s.reg j)) ∧
    (0 < n.toNat → 4095 < s.iReg.toNat + n.toNat - 1 →
      exec (.drw x y n) s = .next { s with
        fault := some ⟨.dataOutOfRange (max s.iReg.toNat 4096), s.pc, some (encode (.drw x y n))⟩
        rs := .stopped
        outputs := s.outputs ++ [.halted (.dataOutOfRange (max s.iReg.toNat 4096))] })

/-- R142 (an inference of the spec from R141; conflict C3 resolved as 90_conflicts.md says): drawing twice restores the
framebuffer, and the second collision says whether the first draw turned a pixel on. -/
def Obligations.DrawingTwiceRestores : Prop :=
  ∀ (x y : RegIx) (n : BitVec 4) (s : State), x ≠ 15 → y ≠ 15 →
    (n.toNat = 0 ∨ s.iReg.toNat + n.toNat - 1 ≤ 4095) →
    ∃ t u, exec (.drw x y n) s = .next t ∧ exec (.drw x y n) t = .next u ∧ u.fb = s.fb ∧
      (u.reg 15 = 1 ↔ ∃ r c, r < 32 ∧ c < 64 ∧
        pixel s.fb r c = false ∧ s.spriteCovers x y n r c = true)

/-- R150, R151, R152 and R178: the timer instructions, their words, and the tone level. -/
def Obligations.TimerMovesAndTone : Prop :=
  ∀ (x : RegIx) (s : State),
    (encode (.ldVxDt x)).toNat = 0xF007 + x.val * 256 ∧
    (encode (.ldDtVx x)).toNat = 0xF015 + x.val * 256 ∧
    (encode (.ldStVx x)).toNat = 0xF018 + x.val * 256 ∧
    (∃ t, exec (.ldVxDt x) s = .next t ∧ t = { s with v := t.v, pc := s.pc + 2 } ∧
      t.reg x = s.dt ∧ ∀ j, j ≠ x → t.reg j = s.reg j) ∧
    exec (.ldDtVx x) s = .next { s with dt := s.reg x, pc := s.pc + 2 } ∧
    exec (.ldStVx x) s = .next { s with
      st := s.reg x, outputs := s.outputs ++ [.soundStateChanged], pc := s.pc + 2 } ∧
    (s.tone = true ↔ s.st.toNat ≠ 0)

/-- R177 and R179 steps 7 and 8: the step that ends a Running cycle (its budget is used up or a key is awaited) counts each timer
down by one, 0 staying 0, presents exactly when a redraw was requested, clears that latch, and changes nothing else but the
model's own bookkeeping (log 1, DEDUCED; log 7, DESIGN CHOICE). -/
def Obligations.CycleEndTicksOnce : Prop :=
  ∀ (s : State) (n : Nat),
    s.phase = .batch n → s.rs = .running → s.fault = none → n = 0 ∨ s.wait ≠ none →
    ∃ t, step s = .next t ∧ t.dt.toNat = s.dt.toNat - 1 ∧ t.st.toNat = s.st.toNat - 1 ∧
      t = { s with
        dt := t.dt, st := t.st, redraw := false, phase := .cycleTop
        outputs := if s.redraw = true then [.presentRequest] else [] }

/-- R175: the input sample replaces the 16 flags and applies at most one control signal, Quit first (the spec's decision D24, log 28); it
sets no fault record and changes nothing else of the spec's state. A Stopped machine takes none. The model's choice (log 2, DESIGN
CHOICE): `samples` counts the sample. -/
def Obligations.InputSampleAppliesOneSignal : Prop :=
  ∀ (inp : HostInput) (s : State),
    (s.rs ≠ .stopped →
      inputSample inp s =
        { s with
          keys := inp.keys
          rs := if inp.quit = true then .stopped
            else if inp.pauseToggle = true then
              (if s.rs = .running then .paused else .running)
            else s.rs
          samples := s.samples + 1 }) ∧
    (s.rs = .stopped → ∀ ipc, stepWith ipc inp s = .next s)

/-- R179 steps 1 to 5, for every input the host may give and every batch length (logs 2, 3): what the step at the top of a cycle
does when the input stops, pauses or runs the machine (log 1, DEDUCED). -/
def Obligations.CycleTopSamplesThenRuns : Prop :=
  ∀ (ipc : Nat) (inp : HostInput) (s : State),
    s.phase = .cycleTop → s.rs ≠ .stopped → s.fault = none →
    step s = stepWith Config.ipc (Config.hostInput s.samples) s ∧
    ∃ t, stepWith ipc inp s = .next t ∧ t.keys = inp.keys ∧
      t.rs = (if inp.quit = true then .stopped
        else if inp.pauseToggle = true then
          (if s.rs = .running then .paused else .running)
        else s.rs) ∧
      (t.rs = .stopped → t = { s with
        keys := t.keys, rs := .stopped, samples := s.samples + 1, outputs := [] }) ∧
      (t.rs = .paused → t = { s with
        keys := t.keys, rs := .paused, samples := s.samples + 1, outputs := [.presentRequest] }) ∧
      (t.rs = .running → t.phase = .batch ipc ∧
        t = { s with
          v := t.v, pc := t.pc, wait := t.wait, keys := t.keys, rs := .running
          samples := s.samples + 1, phase := t.phase, outputs := [] } ∧
        (s.wait = none → t.v = s.v ∧ t.pc = s.pc ∧ t.wait = none))

/-- R162: LD Vx,K starts the wait, with `PC` held at the instruction and no register written; the batch it stands in takes no
further instruction step, whatever keys are down. -/
def Obligations.KeyWaitStartsHeld : Prop :=
  ∀ (x : RegIx) (s : State),
    (encode (.ldVxK x)).toNat = 0xF00A + x.val * 256 ∧
    exec (.ldVxK x) s = .next { s with
      wait := some x, outputs := s.outputs ++ [.awaitingKeypress x] } ∧
    (∀ (t : State) (n : Nat), exec (.ldVxK x) s = .next t →
      s.phase = .batch n → s.rs = .running → s.fault = none →
      ∃ u, step t = .next u ∧ u.v = s.v ∧ u.pc = s.pc ∧ u.wait = some x ∧ u.phase = .cycleTop)

/-- R163: at the top of a Running cycle the lowest newly pressed key completes the wait (the spec's decision D19, log 24); without one
nothing happens; in a cycle that is not Running the wait is not looked at. It holds for every input the host may give (log 2). The
model's choice (log 1, DEDUCED): that the batch which follows has its full length is said of the field `phase`. -/
def Obligations.KeyWaitCompletesOnNewPress : Prop :=
  ∀ (ipc : Nat) (inp : HostInput) (s t : State) (r : RegIx),
    s.phase = .cycleTop → s.rs ≠ .stopped → s.fault = none → s.wait = some r →
    stepWith ipc inp s = .next t →
    t.keys = inp.keys ∧
    (t.rs = .running → t.phase = .batch ipc ∧
      (∀ k : KeyIx, s.keys[k.val] = false → inp.keys[k.val] = true →
        (∀ j : KeyIx, j < k → ¬(s.keys[j.val] = false ∧ inp.keys[j.val] = true)) →
        (t.reg r).toNat = k.val ∧ t.wait = none ∧ t.pc = s.pc + 2 ∧
          ∀ j, j ≠ r → t.reg j = s.reg j) ∧
      ((∀ k : KeyIx, ¬(s.keys[k.val] = false ∧ inp.keys[k.val] = true)) →
        t.v = s.v ∧ t.wait = some r ∧ t.pc = s.pc)) ∧
    (t.rs ≠ .running → t.v = s.v ∧ t.wait = some r ∧ t.pc = s.pc)

/-- R180, for every input the host may give and every batch length (logs 2, 3): the run state changes only by the table's
transitions, and a machine that stays Paused changes nothing but `KEYS` (and the model's own bookkeeping, logs 1, 2 and 7). -/
def Obligations.RunStateFollowsTheTable : Prop :=
  ∀ (ipc : Nat) (inp : HostInput) (s t : State), stepWith ipc inp s = .next t →
    (s.rs = .stopped → t = s) ∧
    (t.rs ≠ s.rs →
      (s.phase = .cycleTop ∧ inp.quit = true ∧ t.rs = .stopped) ∨
      (s.phase = .cycleTop ∧ inp.quit = false ∧ inp.pauseToggle = true ∧
        ((s.rs = .running ∧ t.rs = .paused) ∨ (s.rs = .paused ∧ t.rs = .running))) ∨
      (s.rs = .running ∧ t.rs = .stopped ∧ s.fault = none ∧ ∃ r, t.fault = some r)) ∧
    (s.rs = .paused → t.rs = .paused → t = { s with
      keys := t.keys, phase := t.phase, samples := t.samples, outputs := t.outputs })

/-- R34 for an empty program: the reset value of every item of the state, the glyph table of R51 among the bytes of memory. -/
def Obligations.ResetLeavesTheListedValues : Prop :=
  (∀ x, State.reset.reg x = 0) ∧ State.reset.iReg = 0 ∧ State.reset.pc = 0x0200#16 ∧
  (∀ k : Fin 16, State.reset.stack[k.val] = 0) ∧ State.reset.sp = 0 ∧
  State.reset.dt = 0 ∧ State.reset.st = 0 ∧ (∀ k : KeyIx, State.reset.keys[k.val] = false) ∧
  (∀ r c, pixel State.reset.fb r c = false) ∧ State.reset.rs = .running ∧
  State.reset.wait = none ∧ State.reset.fault = none ∧ State.reset.redraw = false ∧
  (∀ a, a < 0x050 ∨ 0x09F < a → State.reset.mem.read a = 0) ∧
  (List.range 80).map (fun k => (State.reset.mem.read (0x050 + k)).toNat) =
    [0xF0, 0x90, 0x90, 0x90, 0xF0, 0x20, 0x60, 0x20, 0x20, 0x70] ++
    [0xF0, 0x10, 0xF0, 0x80, 0xF0, 0xF0, 0x10, 0xF0, 0x10, 0xF0] ++
    [0x90, 0x90, 0xF0, 0x10, 0x10, 0xF0, 0x80, 0xF0, 0x10, 0xF0] ++
    [0xF0, 0x80, 0xF0, 0x90, 0xF0, 0xF0, 0x10, 0x20, 0x40, 0x40] ++
    [0xF0, 0x90, 0xF0, 0x90, 0xF0, 0xF0, 0x90, 0xF0, 0x10, 0xF0] ++
    [0xF0, 0x90, 0xF0, 0x90, 0x90, 0xE0, 0x90, 0xE0, 0x90, 0xE0] ++
    [0xF0, 0x80, 0x80, 0x80, 0xF0, 0xE0, 0x90, 0x90, 0x90, 0xE0] ++
    [0xF0, 0x80, 0xF0, 0x80, 0xF0, 0xF0, 0x80, 0xF0, 0x80, 0x80]

/-- R201: a program of at most 3584 bytes, the empty one included, is copied verbatim from 0x200 up and nothing else differs from
reset; a longer one gives no machine. -/
def Obligations.ProgramLoadCopiesOrFails : Prop :=
  ∀ rom : List Byte,
    (rom.length ≤ 3584 → ∃ s, load rom = some s ∧ s = { State.reset with mem := s.mem } ∧
      (∀ (k : Nat) (h : k < rom.length), s.mem.read (0x200 + k) = rom[k]) ∧
      (∀ a, ¬(0x200 ≤ a ∧ a < 0x200 + rom.length) →
        s.mem.read a = State.reset.mem.read a)) ∧
    (3584 < rom.length → load rom = none)

/-- The invariant holds at reset and after every program load. -/
def Obligations.ResetAndLoadMeetInvariant : Prop :=
  State.reset.Inv ∧ ∀ (rom : List Byte) (s : State), load rom = some s → s.Inv

/-- Every step keeps the canonical form of memory. -/
def Obligations.MemoryStaysCanonical : Prop :=
  ∀ s t : State, s.mem.wf → step s = .next t → t.mem.wf

/-- R56: no step changes a byte below ENTRY. -/
def Obligations.ReservedBytesNeverChange : Prop :=
  ∀ (s t : State) (a : Nat), step s = .next t → a < 0x200 → t.mem.read a = s.mem.read a

/-- Every step keeps the invariant: canonical memory, a record only when Stopped (R31), Paused only at the top of a cycle (R179), no
redraw pending there (R182), `PC` held at the awaited LD Vx,K (R162), stack entries at most 4096 (R101), `PC` at most 4350
(R23), the bytes below ENTRY as at reset (R51, R56). -/
def Obligations.StepKeepsInvariant : Prop :=
  ∀ s t : State, s.Inv → step s = .next t → t.Inv

/-- R179: from the top of a cycle, enough steps of the machine make the whole cycle of the rule's pseudocode, for the open batch length
`Config.ipc` (log 3) and the host's input `Config.hostInput`, of neither of which a value is known (log 2); the states agree in all but
the phase and the latest outputs, which the pseudocode does not have (log 1, DEDUCED; log 7, DESIGN CHOICE). -/
def Obligations.StepsMakeTheWholeCycle : Prop :=
  ∀ s : State, s.phase = .cycleTop → s.fault = none →
    ∃ k t, Sys2Proof.core.run k s = .next t ∧ (t.phase = .cycleTop ∨ t.rs = .stopped) ∧
      t.bare = (wholeCycle Config.ipc (Config.hostInput s.samples) s).bare

/-- Log 31 (DESIGN CHOICE): a state with a word placed at `PC` runs exactly the instruction the decoder reads from that word, as its
very next step. -/
def Obligations.PlacedWordRunsNext : Prop :=
  ∀ (s : State) (w : Word) (i : Instr),
    s.mem.wf → s.pc.toNat ≤ 4094 → decodeTableWord 16 w.toNat = some i →
    ∃ n, step (s.withFetchWord 16 w.toNat) =
      exec i { s.withFetchWord 16 w.toNat with phase := .batch n, outputs := [] }
end

