-- ==== Sys2Proof/Laws/Memory.lean ====
section
/-! SUPPORT. Reading after writing, and the canonical form of memory. -/

namespace Sys2Proof.Machine

/-- Where every listed address is higher than `a`, the byte at `a` is the unlisted one. -/
theorem read_below (m : Memory) (a : Nat) (h : ∀ c ∈ m, a < c.1) : m.read a = Memory.resetByte a := by
  induction m with
  | nil => rfl
  | cons c rest ih =>
    have hc := h c (by simp)
    have hne : a ≠ c.1 := by omega
    simp only [Memory.read, hne, if_false]
    exact ih fun d hd => h d (by simp [hd])

/-- Another address keeps its byte through a write. -/
theorem read_write_ne (m : Memory) (a b : Nat) (v : Byte) (h : b ≠ a) :
    (m.write a v).read b = m.read b := by
  induction m with
  | nil =>
    simp only [Memory.write]
    split <;> simp [Memory.read, h]
  | cons c rest ih =>
    obtain ⟨k, w⟩ := c
    simp only [Memory.write]
    split_ifs with h1 h2 h3 h4
    · rfl
    · simp [Memory.read, h]
    · subst h3; simp [Memory.read, h]
    · subst h3; simp [Memory.read, h]
    · simp only [Memory.read, ih]

/-- The byte written is the byte read, in a memory of canonical form. -/
theorem read_write_same (m : Memory) (a : Nat) (v : Byte) (hm : m.wf) :
    (m.write a v).read a = v := by
  induction m with
  | nil =>
    simp only [Memory.write]
    split <;> simp [Memory.read, *]
  | cons c rest ih =>
    obtain ⟨k, w⟩ := c
    obtain ⟨hp, hl⟩ := hm
    obtain ⟨hk, hp⟩ := List.pairwise_cons.mp hp
    have hrest : Memory.wf rest := ⟨hp, fun d hd => hl d (by simp [hd])⟩
    simp only [Memory.write]
    split_ifs with h1 h2 h3 h4
    · subst h2
      refine read_below _ _ ?_
      intro d hd
      rcases List.mem_cons.mp hd with rfl | hd
      · exact h1
      · exact lt_trans h1 (hk d hd)
    · simp [Memory.read]
    · subst h3; subst h4
      exact read_below _ _ hk
    · simp [Memory.read]
    · simp only [Memory.read, h3, if_false]
      exact ih hrest

/-- A write at an address that exists keeps the canonical form, and lists no address but the old ones and
its own. -/
theorem write_wf_mem (m : Memory) (a : Nat) (v : Byte) (hm : m.wf) (ha : a < memSize) :
    (m.write a v).wf ∧ ∀ c ∈ m.write a v, c.1 = a ∨ c ∈ m := by
  induction m with
  | nil =>
    simp only [Memory.write]
    split <;> simp_all [Memory.wf]
  | cons c rest ih =>
    obtain ⟨k, w⟩ := c
    obtain ⟨hp, hl⟩ := hm
    obtain ⟨hk, hp'⟩ := List.pairwise_cons.mp hp
    have hrest : Memory.wf rest := ⟨hp', fun d hd => hl d (by simp [hd])⟩
    obtain ⟨hwf, hmem⟩ := ih hrest
    simp only [Memory.write]
    split_ifs with h1 h2 h3 h4
    · exact ⟨⟨hp, hl⟩, fun c hc => .inr hc⟩
    · refine ⟨⟨List.pairwise_cons.mpr ⟨?_, hp⟩, ?_⟩, ?_⟩
      · intro d hd
        rcases List.mem_cons.mp hd with rfl | hd
        · exact h1
        · exact lt_trans h1 (hk d hd)
      · intro d hd
        rcases List.mem_cons.mp hd with rfl | hd
        · exact ⟨ha, h2⟩
        · exact hl d hd
      · intro d hd
        rcases List.mem_cons.mp hd with rfl | hd
        · exact .inl rfl
        · exact .inr hd
    · exact ⟨hrest, fun d hd => .inr (by simp [hd])⟩
    · subst h3
      refine ⟨⟨List.pairwise_cons.mpr ⟨hk, hp'⟩, ?_⟩, ?_⟩
      · intro d hd
        rcases List.mem_cons.mp hd with rfl | hd
        · exact ⟨ha, h4⟩
        · exact hl d (by simp [hd])
      · intro d hd
        rcases List.mem_cons.mp hd with rfl | hd
        · exact .inl rfl
        · exact .inr (by simp [hd])
    · refine ⟨⟨List.pairwise_cons.mpr ⟨?_, hwf.1⟩, ?_⟩, ?_⟩
      · intro d hd
        rcases hmem d hd with h | h
        · show k < d.1
          omega
        · exact hk d h
      · intro d hd
        rcases List.mem_cons.mp hd with rfl | hd
        · exact hl _ (by simp)
        · exact hwf.2 d hd
      · intro d hd
        rcases List.mem_cons.mp hd with rfl | hd
        · exact .inr (by simp)
        · rcases hmem d hd with h | h
          · exact .inl h
          · exact .inr (by simp [h])

/-- A write at an address that exists keeps the canonical form. -/
theorem write_wf (m : Memory) (a : Nat) (v : Byte) (hm : m.wf) (ha : a < memSize) : (m.write a v).wf :=
  (write_wf_mem m a v hm ha).1

/-- A block write inside memory keeps the canonical form. -/
theorem writeBytes_wf (bs : List Byte) (m : Memory) (base : Nat) (hm : m.wf)
    (h : base + bs.length ≤ memSize) : (m.writeBytes base bs).wf := by
  induction bs generalizing m base with
  | nil => exact hm
  | cons b bs ih =>
    simp only [List.length_cons] at h
    exact ih _ _ (write_wf m base b hm (by omega)) (by omega)

/-- Addresses outside a block keep their bytes through a block write. -/
theorem read_writeBytes_outside (bs : List Byte) (m : Memory) (base a : Nat)
    (h : ¬(base ≤ a ∧ a < base + bs.length)) : (m.writeBytes base bs).read a = m.read a := by
  induction bs generalizing m base with
  | nil => rfl
  | cons b bs ih =>
    simp only [List.length_cons] at h
    rw [Memory.writeBytes, ih _ _ (by omega), read_write_ne _ _ _ _ (by omega)]

/-- Each byte of a block write is read back at its place. -/
theorem read_writeBytes (bs : List Byte) (m : Memory) (base k : Nat) (hm : m.wf) (hk : k < bs.length)
    (h : base + bs.length ≤ memSize) : (m.writeBytes base bs).read (base + k) = bs[k] := by
  induction bs generalizing m base k with
  | nil => simp at hk
  | cons b bs ih =>
    simp only [List.length_cons] at h hk
    have hw := write_wf m base b hm (by omega)
    cases k with
    | zero =>
      rw [Memory.writeBytes, read_writeBytes_outside _ _ _ _ (by omega)]
      exact read_write_same m base b hm
    | succ k =>
      have := ih (m.write base b) (base + 1) k hw (by omega) (by omega)
      rw [Memory.writeBytes]
      simpa [Nat.add_assoc, Nat.add_comm 1 k] using this

/-- Two memories of canonical form that read the same everywhere are equal data. -/
theorem memory_ext (m m' : Memory) (hm : m.wf) (hm' : m'.wf) (h : ∀ a, m.read a = m'.read a) :
    m = m' := by
  induction m generalizing m' with
  | nil =>
    cases m' with
    | nil => rfl
    | cons c rest =>
      have := h c.1
      simp only [Memory.read, if_true] at this
      exact absurd this.symm (hm'.2 c (by simp)).2
  | cons c rest ih =>
    obtain ⟨hk, hp⟩ := List.pairwise_cons.mp hm.1
    have hrest : Memory.wf rest := ⟨hp, fun d hd => hm.2 d (by simp [hd])⟩
    cases m' with
    | nil =>
      have := h c.1
      simp only [Memory.read, if_true] at this
      exact absurd this (hm.2 c (by simp)).2
    | cons c' rest' =>
      obtain ⟨hk', hp'⟩ := List.pairwise_cons.mp hm'.1
      have hrest' : Memory.wf rest' := ⟨hp', fun d hd => hm'.2 d (by simp [hd])⟩
      obtain ⟨a, v⟩ := c
      obtain ⟨a', v'⟩ := c'
      have heq : a = a' := by
        rcases Nat.lt_trichotomy a a' with hlt | heq | hlt
        · have := h a
          rw [read_below ((a', v') :: rest') a ?_] at this
          · simp only [Memory.read, if_true] at this
            exact absurd this (hm.2 (a, v) (by simp)).2
          · intro d hd
            rcases List.mem_cons.mp hd with rfl | hd
            · exact hlt
            · exact lt_trans hlt (hk' d hd)
        · exact heq
        · have := h a'
          rw [read_below ((a, v) :: rest) a' ?_] at this
          · simp only [Memory.read, if_true] at this
            exact absurd this.symm (hm'.2 (a', v') (by simp)).2
          · intro d hd
            rcases List.mem_cons.mp hd with rfl | hd
            · exact hlt
            · exact lt_trans hlt (hk d hd)
      subst heq
      have hv : v = v' := by simpa [Memory.read] using h a
      subst hv
      congr 1
      refine ih rest' hrest hrest' fun b => ?_
      by_cases hb : b = a
      · subst hb
        rw [read_below _ _ hk, read_below _ _ hk']
      · simpa [Memory.read, hb] using h b

end Sys2Proof.Machine
end

