-- ==== Sys2Proof/Laws/State.lean ====
section
/-! SUPPORT. What each named update does to each field of the state, one lemma per field, so that no later
proof unfolds an update. -/

namespace Sys2Proof.Machine

variable (s : State)

@[simp] theorem setReg_iReg (x : RegIx) (b : Byte) : (s.setReg x b).iReg = s.iReg := rfl
@[simp] theorem setReg_pc (x : RegIx) (b : Byte) : (s.setReg x b).pc = s.pc := rfl
@[simp] theorem setReg_mem (x : RegIx) (b : Byte) : (s.setReg x b).mem = s.mem := rfl
@[simp] theorem setReg_stack (x : RegIx) (b : Byte) : (s.setReg x b).stack = s.stack := rfl
@[simp] theorem setReg_sp (x : RegIx) (b : Byte) : (s.setReg x b).sp = s.sp := rfl
@[simp] theorem setReg_dt (x : RegIx) (b : Byte) : (s.setReg x b).dt = s.dt := rfl
@[simp] theorem setReg_st (x : RegIx) (b : Byte) : (s.setReg x b).st = s.st := rfl
@[simp] theorem setReg_keys (x : RegIx) (b : Byte) : (s.setReg x b).keys = s.keys := rfl
@[simp] theorem setReg_fb (x : RegIx) (b : Byte) : (s.setReg x b).fb = s.fb := rfl
@[simp] theorem setReg_rs (x : RegIx) (b : Byte) : (s.setReg x b).rs = s.rs := rfl
@[simp] theorem setReg_wait (x : RegIx) (b : Byte) : (s.setReg x b).wait = s.wait := rfl
@[simp] theorem setReg_fault (x : RegIx) (b : Byte) : (s.setReg x b).fault = s.fault := rfl
@[simp] theorem setReg_redraw (x : RegIx) (b : Byte) : (s.setReg x b).redraw = s.redraw := rfl
@[simp] theorem setReg_phase (x : RegIx) (b : Byte) : (s.setReg x b).phase = s.phase := rfl
@[simp] theorem setReg_samples (x : RegIx) (b : Byte) : (s.setReg x b).samples = s.samples := rfl
@[simp] theorem setReg_draws (x : RegIx) (b : Byte) : (s.setReg x b).draws = s.draws := rfl
@[simp] theorem setReg_outputs (x : RegIx) (b : Byte) : (s.setReg x b).outputs = s.outputs := rfl

@[simp] theorem setI_v (w : Word) : (s.setI w).v = s.v := rfl
@[simp] theorem setI_iReg (w : Word) : (s.setI w).iReg = w := rfl
@[simp] theorem setI_pc (w : Word) : (s.setI w).pc = s.pc := rfl
@[simp] theorem setI_mem (w : Word) : (s.setI w).mem = s.mem := rfl
@[simp] theorem setI_stack (w : Word) : (s.setI w).stack = s.stack := rfl
@[simp] theorem setI_sp (w : Word) : (s.setI w).sp = s.sp := rfl
@[simp] theorem setI_dt (w : Word) : (s.setI w).dt = s.dt := rfl
@[simp] theorem setI_st (w : Word) : (s.setI w).st = s.st := rfl
@[simp] theorem setI_keys (w : Word) : (s.setI w).keys = s.keys := rfl
@[simp] theorem setI_fb (w : Word) : (s.setI w).fb = s.fb := rfl
@[simp] theorem setI_rs (w : Word) : (s.setI w).rs = s.rs := rfl
@[simp] theorem setI_wait (w : Word) : (s.setI w).wait = s.wait := rfl
@[simp] theorem setI_fault (w : Word) : (s.setI w).fault = s.fault := rfl
@[simp] theorem setI_redraw (w : Word) : (s.setI w).redraw = s.redraw := rfl
@[simp] theorem setI_phase (w : Word) : (s.setI w).phase = s.phase := rfl
@[simp] theorem setI_samples (w : Word) : (s.setI w).samples = s.samples := rfl
@[simp] theorem setI_draws (w : Word) : (s.setI w).draws = s.draws := rfl
@[simp] theorem setI_outputs (w : Word) : (s.setI w).outputs = s.outputs := rfl

@[simp] theorem setPc_v (w : Word) : (s.setPc w).v = s.v := rfl
@[simp] theorem setPc_iReg (w : Word) : (s.setPc w).iReg = s.iReg := rfl
@[simp] theorem setPc_pc (w : Word) : (s.setPc w).pc = w := rfl
@[simp] theorem setPc_mem (w : Word) : (s.setPc w).mem = s.mem := rfl
@[simp] theorem setPc_stack (w : Word) : (s.setPc w).stack = s.stack := rfl
@[simp] theorem setPc_sp (w : Word) : (s.setPc w).sp = s.sp := rfl
@[simp] theorem setPc_dt (w : Word) : (s.setPc w).dt = s.dt := rfl
@[simp] theorem setPc_st (w : Word) : (s.setPc w).st = s.st := rfl
@[simp] theorem setPc_keys (w : Word) : (s.setPc w).keys = s.keys := rfl
@[simp] theorem setPc_fb (w : Word) : (s.setPc w).fb = s.fb := rfl
@[simp] theorem setPc_rs (w : Word) : (s.setPc w).rs = s.rs := rfl
@[simp] theorem setPc_wait (w : Word) : (s.setPc w).wait = s.wait := rfl
@[simp] theorem setPc_fault (w : Word) : (s.setPc w).fault = s.fault := rfl
@[simp] theorem setPc_redraw (w : Word) : (s.setPc w).redraw = s.redraw := rfl
@[simp] theorem setPc_phase (w : Word) : (s.setPc w).phase = s.phase := rfl
@[simp] theorem setPc_samples (w : Word) : (s.setPc w).samples = s.samples := rfl
@[simp] theorem setPc_draws (w : Word) : (s.setPc w).draws = s.draws := rfl
@[simp] theorem setPc_outputs (w : Word) : (s.setPc w).outputs = s.outputs := rfl

@[simp] theorem setDt_v (b : Byte) : (s.setDt b).v = s.v := rfl
@[simp] theorem setDt_iReg (b : Byte) : (s.setDt b).iReg = s.iReg := rfl
@[simp] theorem setDt_pc (b : Byte) : (s.setDt b).pc = s.pc := rfl
@[simp] theorem setDt_mem (b : Byte) : (s.setDt b).mem = s.mem := rfl
@[simp] theorem setDt_stack (b : Byte) : (s.setDt b).stack = s.stack := rfl
@[simp] theorem setDt_sp (b : Byte) : (s.setDt b).sp = s.sp := rfl
@[simp] theorem setDt_dt (b : Byte) : (s.setDt b).dt = b := rfl
@[simp] theorem setDt_st (b : Byte) : (s.setDt b).st = s.st := rfl
@[simp] theorem setDt_keys (b : Byte) : (s.setDt b).keys = s.keys := rfl
@[simp] theorem setDt_fb (b : Byte) : (s.setDt b).fb = s.fb := rfl
@[simp] theorem setDt_rs (b : Byte) : (s.setDt b).rs = s.rs := rfl
@[simp] theorem setDt_wait (b : Byte) : (s.setDt b).wait = s.wait := rfl
@[simp] theorem setDt_fault (b : Byte) : (s.setDt b).fault = s.fault := rfl
@[simp] theorem setDt_redraw (b : Byte) : (s.setDt b).redraw = s.redraw := rfl
@[simp] theorem setDt_phase (b : Byte) : (s.setDt b).phase = s.phase := rfl
@[simp] theorem setDt_samples (b : Byte) : (s.setDt b).samples = s.samples := rfl
@[simp] theorem setDt_draws (b : Byte) : (s.setDt b).draws = s.draws := rfl
@[simp] theorem setDt_outputs (b : Byte) : (s.setDt b).outputs = s.outputs := rfl

@[simp] theorem setSt_v (b : Byte) : (s.setSt b).v = s.v := rfl
@[simp] theorem setSt_iReg (b : Byte) : (s.setSt b).iReg = s.iReg := rfl
@[simp] theorem setSt_pc (b : Byte) : (s.setSt b).pc = s.pc := rfl
@[simp] theorem setSt_mem (b : Byte) : (s.setSt b).mem = s.mem := rfl
@[simp] theorem setSt_stack (b : Byte) : (s.setSt b).stack = s.stack := rfl
@[simp] theorem setSt_sp (b : Byte) : (s.setSt b).sp = s.sp := rfl
@[simp] theorem setSt_dt (b : Byte) : (s.setSt b).dt = s.dt := rfl
@[simp] theorem setSt_st (b : Byte) : (s.setSt b).st = b := rfl
@[simp] theorem setSt_keys (b : Byte) : (s.setSt b).keys = s.keys := rfl
@[simp] theorem setSt_fb (b : Byte) : (s.setSt b).fb = s.fb := rfl
@[simp] theorem setSt_rs (b : Byte) : (s.setSt b).rs = s.rs := rfl
@[simp] theorem setSt_wait (b : Byte) : (s.setSt b).wait = s.wait := rfl
@[simp] theorem setSt_fault (b : Byte) : (s.setSt b).fault = s.fault := rfl
@[simp] theorem setSt_redraw (b : Byte) : (s.setSt b).redraw = s.redraw := rfl
@[simp] theorem setSt_phase (b : Byte) : (s.setSt b).phase = s.phase := rfl
@[simp] theorem setSt_samples (b : Byte) : (s.setSt b).samples = s.samples := rfl
@[simp] theorem setSt_draws (b : Byte) : (s.setSt b).draws = s.draws := rfl
@[simp] theorem setSt_outputs (b : Byte) : (s.setSt b).outputs = s.outputs := rfl

@[simp] theorem setMem_v (m : Memory) : (s.setMem m).v = s.v := rfl
@[simp] theorem setMem_iReg (m : Memory) : (s.setMem m).iReg = s.iReg := rfl
@[simp] theorem setMem_pc (m : Memory) : (s.setMem m).pc = s.pc := rfl
@[simp] theorem setMem_mem (m : Memory) : (s.setMem m).mem = m := rfl
@[simp] theorem setMem_stack (m : Memory) : (s.setMem m).stack = s.stack := rfl
@[simp] theorem setMem_sp (m : Memory) : (s.setMem m).sp = s.sp := rfl
@[simp] theorem setMem_dt (m : Memory) : (s.setMem m).dt = s.dt := rfl
@[simp] theorem setMem_st (m : Memory) : (s.setMem m).st = s.st := rfl
@[simp] theorem setMem_keys (m : Memory) : (s.setMem m).keys = s.keys := rfl
@[simp] theorem setMem_fb (m : Memory) : (s.setMem m).fb = s.fb := rfl
@[simp] theorem setMem_rs (m : Memory) : (s.setMem m).rs = s.rs := rfl
@[simp] theorem setMem_wait (m : Memory) : (s.setMem m).wait = s.wait := rfl
@[simp] theorem setMem_fault (m : Memory) : (s.setMem m).fault = s.fault := rfl
@[simp] theorem setMem_redraw (m : Memory) : (s.setMem m).redraw = s.redraw := rfl
@[simp] theorem setMem_phase (m : Memory) : (s.setMem m).phase = s.phase := rfl
@[simp] theorem setMem_samples (m : Memory) : (s.setMem m).samples = s.samples := rfl
@[simp] theorem setMem_draws (m : Memory) : (s.setMem m).draws = s.draws := rfl
@[simp] theorem setMem_outputs (m : Memory) : (s.setMem m).outputs = s.outputs := rfl

@[simp] theorem emit_v (o : Output) : (s.emit o).v = s.v := rfl
@[simp] theorem emit_iReg (o : Output) : (s.emit o).iReg = s.iReg := rfl
@[simp] theorem emit_pc (o : Output) : (s.emit o).pc = s.pc := rfl
@[simp] theorem emit_mem (o : Output) : (s.emit o).mem = s.mem := rfl
@[simp] theorem emit_stack (o : Output) : (s.emit o).stack = s.stack := rfl
@[simp] theorem emit_sp (o : Output) : (s.emit o).sp = s.sp := rfl
@[simp] theorem emit_dt (o : Output) : (s.emit o).dt = s.dt := rfl
@[simp] theorem emit_st (o : Output) : (s.emit o).st = s.st := rfl
@[simp] theorem emit_keys (o : Output) : (s.emit o).keys = s.keys := rfl
@[simp] theorem emit_fb (o : Output) : (s.emit o).fb = s.fb := rfl
@[simp] theorem emit_rs (o : Output) : (s.emit o).rs = s.rs := rfl
@[simp] theorem emit_wait (o : Output) : (s.emit o).wait = s.wait := rfl
@[simp] theorem emit_fault (o : Output) : (s.emit o).fault = s.fault := rfl
@[simp] theorem emit_redraw (o : Output) : (s.emit o).redraw = s.redraw := rfl
@[simp] theorem emit_phase (o : Output) : (s.emit o).phase = s.phase := rfl
@[simp] theorem emit_samples (o : Output) : (s.emit o).samples = s.samples := rfl
@[simp] theorem emit_draws (o : Output) : (s.emit o).draws = s.draws := rfl
@[simp] theorem emit_outputs (o : Output) : (s.emit o).outputs = s.outputs ++ [o] := rfl

@[simp] theorem requestRedraw_v : s.requestRedraw.v = s.v := rfl
@[simp] theorem requestRedraw_iReg : s.requestRedraw.iReg = s.iReg := rfl
@[simp] theorem requestRedraw_pc : s.requestRedraw.pc = s.pc := rfl
@[simp] theorem requestRedraw_mem : s.requestRedraw.mem = s.mem := rfl
@[simp] theorem requestRedraw_stack : s.requestRedraw.stack = s.stack := rfl
@[simp] theorem requestRedraw_sp : s.requestRedraw.sp = s.sp := rfl
@[simp] theorem requestRedraw_dt : s.requestRedraw.dt = s.dt := rfl
@[simp] theorem requestRedraw_st : s.requestRedraw.st = s.st := rfl
@[simp] theorem requestRedraw_keys : s.requestRedraw.keys = s.keys := rfl
@[simp] theorem requestRedraw_fb : s.requestRedraw.fb = s.fb := rfl
@[simp] theorem requestRedraw_rs : s.requestRedraw.rs = s.rs := rfl
@[simp] theorem requestRedraw_wait : s.requestRedraw.wait = s.wait := rfl
@[simp] theorem requestRedraw_fault : s.requestRedraw.fault = s.fault := rfl
@[simp] theorem requestRedraw_redraw : s.requestRedraw.redraw = true := rfl
@[simp] theorem requestRedraw_phase : s.requestRedraw.phase = s.phase := rfl
@[simp] theorem requestRedraw_samples : s.requestRedraw.samples = s.samples := rfl
@[simp] theorem requestRedraw_draws : s.requestRedraw.draws = s.draws := rfl
@[simp] theorem requestRedraw_outputs : s.requestRedraw.outputs = s.outputs ++ [.redrawRequested] := rfl

@[simp] theorem advance_v : s.advance.v = s.v := rfl
@[simp] theorem advance_iReg : s.advance.iReg = s.iReg := rfl
@[simp] theorem advance_pc : s.advance.pc = s.pc + 2 := rfl
@[simp] theorem advance_mem : s.advance.mem = s.mem := rfl
@[simp] theorem advance_stack : s.advance.stack = s.stack := rfl
@[simp] theorem advance_sp : s.advance.sp = s.sp := rfl
@[simp] theorem advance_dt : s.advance.dt = s.dt := rfl
@[simp] theorem advance_st : s.advance.st = s.st := rfl
@[simp] theorem advance_keys : s.advance.keys = s.keys := rfl
@[simp] theorem advance_fb : s.advance.fb = s.fb := rfl
@[simp] theorem advance_rs : s.advance.rs = s.rs := rfl
@[simp] theorem advance_wait : s.advance.wait = s.wait := rfl
@[simp] theorem advance_fault : s.advance.fault = s.fault := rfl
@[simp] theorem advance_redraw : s.advance.redraw = s.redraw := rfl
@[simp] theorem advance_phase : s.advance.phase = s.phase := rfl
@[simp] theorem advance_samples : s.advance.samples = s.samples := rfl
@[simp] theorem advance_draws : s.advance.draws = s.draws := rfl
@[simp] theorem advance_outputs : s.advance.outputs = s.outputs := rfl

@[simp] theorem loadRegsUpTo_iReg (x : RegIx) (base : Nat) : (s.loadRegsUpTo x base).iReg = s.iReg := rfl
@[simp] theorem loadRegsUpTo_pc (x : RegIx) (base : Nat) : (s.loadRegsUpTo x base).pc = s.pc := rfl
@[simp] theorem loadRegsUpTo_mem (x : RegIx) (base : Nat) : (s.loadRegsUpTo x base).mem = s.mem := rfl
@[simp] theorem loadRegsUpTo_stack (x : RegIx) (base : Nat) : (s.loadRegsUpTo x base).stack = s.stack := rfl
@[simp] theorem loadRegsUpTo_sp (x : RegIx) (base : Nat) : (s.loadRegsUpTo x base).sp = s.sp := rfl
@[simp] theorem loadRegsUpTo_dt (x : RegIx) (base : Nat) : (s.loadRegsUpTo x base).dt = s.dt := rfl
@[simp] theorem loadRegsUpTo_st (x : RegIx) (base : Nat) : (s.loadRegsUpTo x base).st = s.st := rfl
@[simp] theorem loadRegsUpTo_keys (x : RegIx) (base : Nat) : (s.loadRegsUpTo x base).keys = s.keys := rfl
@[simp] theorem loadRegsUpTo_fb (x : RegIx) (base : Nat) : (s.loadRegsUpTo x base).fb = s.fb := rfl
@[simp] theorem loadRegsUpTo_rs (x : RegIx) (base : Nat) : (s.loadRegsUpTo x base).rs = s.rs := rfl
@[simp] theorem loadRegsUpTo_wait (x : RegIx) (base : Nat) : (s.loadRegsUpTo x base).wait = s.wait := rfl
@[simp] theorem loadRegsUpTo_fault (x : RegIx) (base : Nat) : (s.loadRegsUpTo x base).fault = s.fault := rfl
@[simp] theorem loadRegsUpTo_redraw (x : RegIx) (base : Nat) : (s.loadRegsUpTo x base).redraw = s.redraw := rfl
@[simp] theorem loadRegsUpTo_phase (x : RegIx) (base : Nat) : (s.loadRegsUpTo x base).phase = s.phase := rfl
@[simp] theorem loadRegsUpTo_samples (x : RegIx) (base : Nat) : (s.loadRegsUpTo x base).samples = s.samples := rfl
@[simp] theorem loadRegsUpTo_draws (x : RegIx) (base : Nat) : (s.loadRegsUpTo x base).draws = s.draws := rfl
@[simp] theorem loadRegsUpTo_outputs (x : RegIx) (base : Nat) : (s.loadRegsUpTo x base).outputs = s.outputs := rfl

@[simp] theorem writeResultThenFlag_iReg (x : RegIx) (b : Byte) (c : Bool) : (s.writeResultThenFlag x b c).iReg = s.iReg := rfl
@[simp] theorem writeResultThenFlag_pc (x : RegIx) (b : Byte) (c : Bool) : (s.writeResultThenFlag x b c).pc = s.pc := rfl
@[simp] theorem writeResultThenFlag_mem (x : RegIx) (b : Byte) (c : Bool) : (s.writeResultThenFlag x b c).mem = s.mem := rfl
@[simp] theorem writeResultThenFlag_stack (x : RegIx) (b : Byte) (c : Bool) : (s.writeResultThenFlag x b c).stack = s.stack := rfl
@[simp] theorem writeResultThenFlag_sp (x : RegIx) (b : Byte) (c : Bool) : (s.writeResultThenFlag x b c).sp = s.sp := rfl
@[simp] theorem writeResultThenFlag_dt (x : RegIx) (b : Byte) (c : Bool) : (s.writeResultThenFlag x b c).dt = s.dt := rfl
@[simp] theorem writeResultThenFlag_st (x : RegIx) (b : Byte) (c : Bool) : (s.writeResultThenFlag x b c).st = s.st := rfl
@[simp] theorem writeResultThenFlag_keys (x : RegIx) (b : Byte) (c : Bool) : (s.writeResultThenFlag x b c).keys = s.keys := rfl
@[simp] theorem writeResultThenFlag_fb (x : RegIx) (b : Byte) (c : Bool) : (s.writeResultThenFlag x b c).fb = s.fb := rfl
@[simp] theorem writeResultThenFlag_rs (x : RegIx) (b : Byte) (c : Bool) : (s.writeResultThenFlag x b c).rs = s.rs := rfl
@[simp] theorem writeResultThenFlag_wait (x : RegIx) (b : Byte) (c : Bool) : (s.writeResultThenFlag x b c).wait = s.wait := rfl
@[simp] theorem writeResultThenFlag_fault (x : RegIx) (b : Byte) (c : Bool) : (s.writeResultThenFlag x b c).fault = s.fault := rfl
@[simp] theorem writeResultThenFlag_redraw (x : RegIx) (b : Byte) (c : Bool) : (s.writeResultThenFlag x b c).redraw = s.redraw := rfl
@[simp] theorem writeResultThenFlag_phase (x : RegIx) (b : Byte) (c : Bool) : (s.writeResultThenFlag x b c).phase = s.phase := rfl
@[simp] theorem writeResultThenFlag_samples (x : RegIx) (b : Byte) (c : Bool) : (s.writeResultThenFlag x b c).samples = s.samples := rfl
@[simp] theorem writeResultThenFlag_draws (x : RegIx) (b : Byte) (c : Bool) : (s.writeResultThenFlag x b c).draws = s.draws := rfl
@[simp] theorem writeResultThenFlag_outputs (x : RegIx) (b : Byte) (c : Bool) : (s.writeResultThenFlag x b c).outputs = s.outputs := rfl

@[simp] theorem writeReg_iReg (x : RegIx) (b : Byte) : (s.writeReg x b).iReg = s.iReg := rfl
@[simp] theorem writeReg_pc (x : RegIx) (b : Byte) : (s.writeReg x b).pc = s.pc + 2 := rfl
@[simp] theorem writeReg_mem (x : RegIx) (b : Byte) : (s.writeReg x b).mem = s.mem := rfl
@[simp] theorem writeReg_stack (x : RegIx) (b : Byte) : (s.writeReg x b).stack = s.stack := rfl
@[simp] theorem writeReg_sp (x : RegIx) (b : Byte) : (s.writeReg x b).sp = s.sp := rfl
@[simp] theorem writeReg_dt (x : RegIx) (b : Byte) : (s.writeReg x b).dt = s.dt := rfl
@[simp] theorem writeReg_st (x : RegIx) (b : Byte) : (s.writeReg x b).st = s.st := rfl
@[simp] theorem writeReg_keys (x : RegIx) (b : Byte) : (s.writeReg x b).keys = s.keys := rfl
@[simp] theorem writeReg_fb (x : RegIx) (b : Byte) : (s.writeReg x b).fb = s.fb := rfl
@[simp] theorem writeReg_rs (x : RegIx) (b : Byte) : (s.writeReg x b).rs = s.rs := rfl
@[simp] theorem writeReg_wait (x : RegIx) (b : Byte) : (s.writeReg x b).wait = s.wait := rfl
@[simp] theorem writeReg_fault (x : RegIx) (b : Byte) : (s.writeReg x b).fault = s.fault := rfl
@[simp] theorem writeReg_redraw (x : RegIx) (b : Byte) : (s.writeReg x b).redraw = s.redraw := rfl
@[simp] theorem writeReg_phase (x : RegIx) (b : Byte) : (s.writeReg x b).phase = s.phase := rfl
@[simp] theorem writeReg_samples (x : RegIx) (b : Byte) : (s.writeReg x b).samples = s.samples := rfl
@[simp] theorem writeReg_draws (x : RegIx) (b : Byte) : (s.writeReg x b).draws = s.draws := rfl
@[simp] theorem writeReg_outputs (x : RegIx) (b : Byte) : (s.writeReg x b).outputs = s.outputs := rfl

@[simp] theorem writeRegFlag_iReg (x : RegIx) (b : Byte) (c : Bool) : (s.writeRegFlag x b c).iReg = s.iReg := rfl
@[simp] theorem writeRegFlag_pc (x : RegIx) (b : Byte) (c : Bool) : (s.writeRegFlag x b c).pc = s.pc + 2 := rfl
@[simp] theorem writeRegFlag_mem (x : RegIx) (b : Byte) (c : Bool) : (s.writeRegFlag x b c).mem = s.mem := rfl
@[simp] theorem writeRegFlag_stack (x : RegIx) (b : Byte) (c : Bool) : (s.writeRegFlag x b c).stack = s.stack := rfl
@[simp] theorem writeRegFlag_sp (x : RegIx) (b : Byte) (c : Bool) : (s.writeRegFlag x b c).sp = s.sp := rfl
@[simp] theorem writeRegFlag_dt (x : RegIx) (b : Byte) (c : Bool) : (s.writeRegFlag x b c).dt = s.dt := rfl
@[simp] theorem writeRegFlag_st (x : RegIx) (b : Byte) (c : Bool) : (s.writeRegFlag x b c).st = s.st := rfl
@[simp] theorem writeRegFlag_keys (x : RegIx) (b : Byte) (c : Bool) : (s.writeRegFlag x b c).keys = s.keys := rfl
@[simp] theorem writeRegFlag_fb (x : RegIx) (b : Byte) (c : Bool) : (s.writeRegFlag x b c).fb = s.fb := rfl
@[simp] theorem writeRegFlag_rs (x : RegIx) (b : Byte) (c : Bool) : (s.writeRegFlag x b c).rs = s.rs := rfl
@[simp] theorem writeRegFlag_wait (x : RegIx) (b : Byte) (c : Bool) : (s.writeRegFlag x b c).wait = s.wait := rfl
@[simp] theorem writeRegFlag_fault (x : RegIx) (b : Byte) (c : Bool) : (s.writeRegFlag x b c).fault = s.fault := rfl
@[simp] theorem writeRegFlag_redraw (x : RegIx) (b : Byte) (c : Bool) : (s.writeRegFlag x b c).redraw = s.redraw := rfl
@[simp] theorem writeRegFlag_phase (x : RegIx) (b : Byte) (c : Bool) : (s.writeRegFlag x b c).phase = s.phase := rfl
@[simp] theorem writeRegFlag_samples (x : RegIx) (b : Byte) (c : Bool) : (s.writeRegFlag x b c).samples = s.samples := rfl
@[simp] theorem writeRegFlag_draws (x : RegIx) (b : Byte) (c : Bool) : (s.writeRegFlag x b c).draws = s.draws := rfl
@[simp] theorem writeRegFlag_outputs (x : RegIx) (b : Byte) (c : Bool) : (s.writeRegFlag x b c).outputs = s.outputs := rfl

@[simp] theorem takeFault_v (f : Fault) (op : Option Word) : (takeFault f op s).v = s.v := rfl
@[simp] theorem takeFault_iReg (f : Fault) (op : Option Word) : (takeFault f op s).iReg = s.iReg := rfl
@[simp] theorem takeFault_pc (f : Fault) (op : Option Word) : (takeFault f op s).pc = s.pc := rfl
@[simp] theorem takeFault_mem (f : Fault) (op : Option Word) : (takeFault f op s).mem = s.mem := rfl
@[simp] theorem takeFault_stack (f : Fault) (op : Option Word) : (takeFault f op s).stack = s.stack := rfl
@[simp] theorem takeFault_sp (f : Fault) (op : Option Word) : (takeFault f op s).sp = s.sp := rfl
@[simp] theorem takeFault_dt (f : Fault) (op : Option Word) : (takeFault f op s).dt = s.dt := rfl
@[simp] theorem takeFault_st (f : Fault) (op : Option Word) : (takeFault f op s).st = s.st := rfl
@[simp] theorem takeFault_keys (f : Fault) (op : Option Word) : (takeFault f op s).keys = s.keys := rfl
@[simp] theorem takeFault_fb (f : Fault) (op : Option Word) : (takeFault f op s).fb = s.fb := rfl
@[simp] theorem takeFault_rs (f : Fault) (op : Option Word) : (takeFault f op s).rs = .stopped := rfl
@[simp] theorem takeFault_wait (f : Fault) (op : Option Word) : (takeFault f op s).wait = s.wait := rfl
@[simp] theorem takeFault_fault (f : Fault) (op : Option Word) : (takeFault f op s).fault = some ⟨f, s.pc, op⟩ := rfl
@[simp] theorem takeFault_redraw (f : Fault) (op : Option Word) : (takeFault f op s).redraw = s.redraw := rfl
@[simp] theorem takeFault_phase (f : Fault) (op : Option Word) : (takeFault f op s).phase = s.phase := rfl
@[simp] theorem takeFault_samples (f : Fault) (op : Option Word) : (takeFault f op s).samples = s.samples := rfl
@[simp] theorem takeFault_draws (f : Fault) (op : Option Word) : (takeFault f op s).draws = s.draws := rfl
@[simp] theorem takeFault_outputs (f : Fault) (op : Option Word) : (takeFault f op s).outputs = s.outputs ++ [.halted f] := rfl

@[simp] theorem beginStep_v (n : Nat) : (beginStep n s).v = s.v := rfl
@[simp] theorem beginStep_iReg (n : Nat) : (beginStep n s).iReg = s.iReg := rfl
@[simp] theorem beginStep_pc (n : Nat) : (beginStep n s).pc = s.pc := rfl
@[simp] theorem beginStep_mem (n : Nat) : (beginStep n s).mem = s.mem := rfl
@[simp] theorem beginStep_stack (n : Nat) : (beginStep n s).stack = s.stack := rfl
@[simp] theorem beginStep_sp (n : Nat) : (beginStep n s).sp = s.sp := rfl
@[simp] theorem beginStep_dt (n : Nat) : (beginStep n s).dt = s.dt := rfl
@[simp] theorem beginStep_st (n : Nat) : (beginStep n s).st = s.st := rfl
@[simp] theorem beginStep_keys (n : Nat) : (beginStep n s).keys = s.keys := rfl
@[simp] theorem beginStep_fb (n : Nat) : (beginStep n s).fb = s.fb := rfl
@[simp] theorem beginStep_rs (n : Nat) : (beginStep n s).rs = s.rs := rfl
@[simp] theorem beginStep_wait (n : Nat) : (beginStep n s).wait = s.wait := rfl
@[simp] theorem beginStep_fault (n : Nat) : (beginStep n s).fault = s.fault := rfl
@[simp] theorem beginStep_redraw (n : Nat) : (beginStep n s).redraw = s.redraw := rfl
@[simp] theorem beginStep_phase (n : Nat) : (beginStep n s).phase = .batch n := rfl
@[simp] theorem beginStep_samples (n : Nat) : (beginStep n s).samples = s.samples := rfl
@[simp] theorem beginStep_draws (n : Nat) : (beginStep n s).draws = s.draws := rfl
@[simp] theorem beginStep_outputs (n : Nat) : (beginStep n s).outputs = [] := rfl

@[simp] theorem tick_v : (tick s).v = s.v := rfl
@[simp] theorem tick_iReg : (tick s).iReg = s.iReg := rfl
@[simp] theorem tick_pc : (tick s).pc = s.pc := rfl
@[simp] theorem tick_mem : (tick s).mem = s.mem := rfl
@[simp] theorem tick_stack : (tick s).stack = s.stack := rfl
@[simp] theorem tick_sp : (tick s).sp = s.sp := rfl
@[simp] theorem tick_dt : (tick s).dt = countDown s.dt := rfl
@[simp] theorem tick_st : (tick s).st = countDown s.st := rfl
@[simp] theorem tick_keys : (tick s).keys = s.keys := rfl
@[simp] theorem tick_fb : (tick s).fb = s.fb := rfl
@[simp] theorem tick_rs : (tick s).rs = s.rs := rfl
@[simp] theorem tick_wait : (tick s).wait = s.wait := rfl
@[simp] theorem tick_fault : (tick s).fault = s.fault := rfl
@[simp] theorem tick_redraw : (tick s).redraw = s.redraw := rfl
@[simp] theorem tick_phase : (tick s).phase = s.phase := rfl
@[simp] theorem tick_samples : (tick s).samples = s.samples := rfl
@[simp] theorem tick_draws : (tick s).draws = s.draws := rfl
@[simp] theorem tick_outputs : (tick s).outputs = s.outputs := rfl

@[simp] theorem presentRequest_v : (presentRequest s).v = s.v := rfl
@[simp] theorem presentRequest_iReg : (presentRequest s).iReg = s.iReg := rfl
@[simp] theorem presentRequest_pc : (presentRequest s).pc = s.pc := rfl
@[simp] theorem presentRequest_mem : (presentRequest s).mem = s.mem := rfl
@[simp] theorem presentRequest_stack : (presentRequest s).stack = s.stack := rfl
@[simp] theorem presentRequest_sp : (presentRequest s).sp = s.sp := rfl
@[simp] theorem presentRequest_dt : (presentRequest s).dt = s.dt := rfl
@[simp] theorem presentRequest_st : (presentRequest s).st = s.st := rfl
@[simp] theorem presentRequest_keys : (presentRequest s).keys = s.keys := rfl
@[simp] theorem presentRequest_fb : (presentRequest s).fb = s.fb := rfl
@[simp] theorem presentRequest_rs : (presentRequest s).rs = s.rs := rfl
@[simp] theorem presentRequest_wait : (presentRequest s).wait = s.wait := rfl
@[simp] theorem presentRequest_fault : (presentRequest s).fault = s.fault := rfl
@[simp] theorem presentRequest_redraw : (presentRequest s).redraw = s.redraw := rfl
@[simp] theorem presentRequest_phase : (presentRequest s).phase = s.phase := rfl
@[simp] theorem presentRequest_samples : (presentRequest s).samples = s.samples := rfl
@[simp] theorem presentRequest_draws : (presentRequest s).draws = s.draws := rfl
@[simp] theorem presentRequest_outputs : (presentRequest s).outputs = s.outputs ++ [.presentRequest] := rfl

@[simp] theorem inputSample_v (inp : HostInput) : (inputSample inp s).v = s.v := rfl
@[simp] theorem inputSample_iReg (inp : HostInput) : (inputSample inp s).iReg = s.iReg := rfl
@[simp] theorem inputSample_pc (inp : HostInput) : (inputSample inp s).pc = s.pc := rfl
@[simp] theorem inputSample_mem (inp : HostInput) : (inputSample inp s).mem = s.mem := rfl
@[simp] theorem inputSample_stack (inp : HostInput) : (inputSample inp s).stack = s.stack := rfl
@[simp] theorem inputSample_sp (inp : HostInput) : (inputSample inp s).sp = s.sp := rfl
@[simp] theorem inputSample_dt (inp : HostInput) : (inputSample inp s).dt = s.dt := rfl
@[simp] theorem inputSample_st (inp : HostInput) : (inputSample inp s).st = s.st := rfl
@[simp] theorem inputSample_keys (inp : HostInput) : (inputSample inp s).keys = inp.keys := rfl
@[simp] theorem inputSample_fb (inp : HostInput) : (inputSample inp s).fb = s.fb := rfl
@[simp] theorem inputSample_rs (inp : HostInput) : (inputSample inp s).rs = applyControl (controlOf inp) s.rs := rfl
@[simp] theorem inputSample_wait (inp : HostInput) : (inputSample inp s).wait = s.wait := rfl
@[simp] theorem inputSample_fault (inp : HostInput) : (inputSample inp s).fault = s.fault := rfl
@[simp] theorem inputSample_redraw (inp : HostInput) : (inputSample inp s).redraw = s.redraw := rfl
@[simp] theorem inputSample_phase (inp : HostInput) : (inputSample inp s).phase = s.phase := rfl
@[simp] theorem inputSample_samples (inp : HostInput) : (inputSample inp s).samples = s.samples + 1 := rfl
@[simp] theorem inputSample_draws (inp : HostInput) : (inputSample inp s).draws = s.draws := rfl
@[simp] theorem inputSample_outputs (inp : HostInput) : (inputSample inp s).outputs = s.outputs := rfl

end Sys2Proof.Machine
end

