-- ==== Sys2Proof/Laws/Ops.lean ====
section
/-! SUPPORT. What each shared operation can do, said once. -/

namespace Sys2Proof.Machine

/-- The register written reads as what was written. -/
@[simp] theorem reg_setReg_same (s : State) (x : RegIx) (b : Byte) : (s.setReg x b).reg x = b := by
  simp [State.reg, State.setReg]

/-- Another register reads as before. -/
theorem reg_setReg_ne (s : State) (x j : RegIx) (b : Byte) (h : j ≠ x) :
    (s.setReg x b).reg j = s.reg j := by
  have : x.val ≠ j.val := fun e => h (Fin.ext e.symm)
  simp [State.reg, State.setReg, this]

/-- Every register after a write. -/
theorem reg_setReg (s : State) (x j : RegIx) (b : Byte) :
    (s.setReg x b).reg j = if j = x then b else s.reg j := by
  split
  · subst_vars; simp
  · rw [reg_setReg_ne _ _ _ _ ‹_›]

/-- Two states with the same registers are alike in `v`. -/
theorem v_ext (s t : State) (h : ∀ j, s.reg j = t.reg j) : s.v = t.v :=
  Vector.ext fun j hj => h ⟨j, hj⟩

/-- The registers do not depend on the other fields. -/
theorem reg_congr (s t : State) (h : s.v = t.v) (j : RegIx) : s.reg j = t.reg j := by
  simp [State.reg, h]

@[simp] theorem reg_advance (s : State) (j : RegIx) : s.advance.reg j = s.reg j := rfl

@[simp] theorem reg_requestRedraw (s : State) (j : RegIx) : s.requestRedraw.reg j = s.reg j := rfl

@[simp] theorem reg_emit (s : State) (o : Output) (j : RegIx) : (s.emit o).reg j = s.reg j := rfl

/-- Every register after `writeReg`. -/
theorem reg_writeReg (s : State) (x j : RegIx) (b : Byte) :
    (s.writeReg x b).reg j = if j = x then b else s.reg j := reg_setReg s x j b

/-- Every register after the two writes of a flag-writing instruction: the flag wins (R123). -/
theorem reg_writeRegFlag (s : State) (x j : RegIx) (b : Byte) (c : Bool) :
    (s.writeRegFlag x b c).reg j = if j = 15 then flagByte c else if j = x then b else s.reg j := by
  show ((s.setReg x b).setReg flagReg (flagByte c)).reg j = _
  rw [reg_setReg, reg_setReg]; rfl

/-- `skipIf` as one update of `PC`. -/
theorem skipIf_eq (s : State) (c : Bool) :
    s.skipIf c = s.setPc (if c then s.pc + 2 + 2 else s.pc + 2) := by
  cases c <;> rfl

/-- Every register after a block load (R133). -/
theorem reg_loadRegsUpTo (s : State) (x j : RegIx) (base : Nat) :
    (s.loadRegsUpTo x base).reg j = if j ≤ x then s.mem.read (base + j.val) else s.reg j := by
  simp only [State.reg, State.loadRegsUpTo, Vector.getElem_ofFn]
  rfl

/-- The two answers of a push (R25). -/
theorem push_cases (w : Word) (s : State) :
    (∃ h : s.sp.val < 16, push w s =
      .ok { s with stack := s.stack.set s.sp.val w, sp := ⟨s.sp.val + 1, by omega⟩ }) ∨
    (s.sp.val = 16 ∧ push w s = .error .stackOverflow) := by
  by_cases h : s.sp.val < 16
  · exact .inl ⟨h, by simp [push, h]⟩
  · exact .inr ⟨by omega, by simp [push, h]⟩

/-- The two answers of a pop (R25). -/
theorem pop_cases (s : State) :
    (∃ h : 0 < s.sp.val, pop s =
      .ok (s.stack[s.sp.val - 1], { s with sp := ⟨s.sp.val - 1, by omega⟩ })) ∨
    (s.sp.val = 0 ∧ pop s = .error .stackUnderflow) := by
  by_cases h : 0 < s.sp.val
  · exact .inl ⟨h, by simp [pop, h]⟩
  · exact .inr ⟨by omega, by simp [pop, h]⟩

/-- An instruction's end answers a next state: it completes, or the fault is taken in the state before it. -/
theorem complete_cases (i : Instr) (s : State) (r : Except Fault State) :
    (∃ t, r = .ok t ∧ complete i s r = .next t) ∨
    (∃ f, r = .error f ∧ complete i s r = .next (takeFault f (some (encode i)) s)) := by
  cases r with
  | ok t => exact .inl ⟨t, rfl, rfl⟩
  | error f => exact .inr ⟨f, rfl, rfl⟩

/-- The first address of a block above 4095, in closed form (R55). -/
theorem firstOutOfRange_eq (base len : Nat) :
    firstOutOfRange base len =
      if len = 0 ∨ base + len ≤ 4096 then none else some (max base 4096) := by
  unfold firstOutOfRange blockAddresses
  split_ifs with h
  · rw [List.find?_eq_none]
    intro a ha
    obtain ⟨k, hk, rfl⟩ := List.mem_map.mp ha
    have := List.mem_range.mp hk
    simp; omega
  · rw [List.find?_eq_some_iff_append]
    refine ⟨by simp, ?_⟩
    refine ⟨(List.range (4096 - base)).map (base + ·),
      (List.range' (4096 - base + 1) (len - (4096 - base) - 1)).map (base + ·), ?_, ?_⟩
    · have hm : max base 4096 = base + (4096 - base) := by omega
      rw [hm, ← List.map_cons (f := (base + ·)), ← List.map_append]
      congr 1
      have h1 : len = (4096 - base) + (1 + (len - (4096 - base) - 1)) := by omega
      conv_lhs => rw [h1]
      rw [List.range_eq_range', List.range_eq_range', ← List.range'_append_1, Nat.add_comm 1,
        List.range'_succ]
      simp
    · intro a ha
      obtain ⟨k, hk, rfl⟩ := List.mem_map.mp ha
      have := List.mem_range.mp hk
      simp; omega

/-- The check before a read, in closed form (R55). -/
theorem loadFault_eq (base len : Nat) :
    loadFault base len =
      if len = 0 ∨ base + len ≤ 4096 then none else some (.dataOutOfRange (max base 4096)) := by
  unfold loadFault
  rw [firstOutOfRange_eq]
  split_ifs <;> rfl

/-- The check before a write of at least one byte, in closed form (R55, R56). -/
theorem storeFault_eq (base len : Nat) (hlen : 0 < len) :
    storeFault base len =
      if 4096 < base + len then some (.dataOutOfRange (max base 4096))
      else if base < 512 then some (.reservedWrite base) else none := by
  unfold storeFault
  rw [firstOutOfRange_eq]
  by_cases h : 4096 < base + len
  · rw [if_neg (by omega), if_pos h]
  · rw [if_pos (by omega), if_neg h]; rfl

/-- The two answers of a block store of at least one byte. -/
theorem storeBlock_cases (base : Nat) (bs : List Byte) (s : State) (hlen : 0 < bs.length) :
    (512 ≤ base ∧ base + bs.length ≤ 4096 ∧
      storeBlock base bs s = .ok (s.setMem (s.mem.writeBytes base bs))) ∨
    (4096 < base + bs.length ∧ storeBlock base bs s = .error (.dataOutOfRange (max base 4096))) ∨
    (base + bs.length ≤ 4096 ∧ base < 512 ∧ storeBlock base bs s = .error (.reservedWrite base)) := by
  unfold storeBlock
  rw [storeFault_eq _ _ hlen]
  by_cases h : 4096 < base + bs.length
  · exact .inr (.inl ⟨h, by rw [if_pos h]⟩)
  · by_cases h' : base < 512
    · exact .inr (.inr ⟨by omega, h', by rw [if_neg h, if_pos h']⟩)
    · exact .inl ⟨by omega, by omega, by rw [if_neg h, if_neg h']⟩

/-- A block store of LD [I],Vx has `x + 1` bytes (R132). -/
@[simp] theorem regsUpTo_length (s : State) (x : RegIx) : (s.regsUpTo x).length = x.val + 1 := by
  have := x.isLt
  simp [State.regsUpTo]

/-- Byte `k` of the block is `V[k]` (R132). -/
theorem regsUpTo_getElem (s : State) (x : RegIx) (k : Nat) (hk : k < (s.regsUpTo x).length) :
    (s.regsUpTo x)[k] = s.reg ⟨k, by have := x.isLt; simp at hk; omega⟩ := by
  simp [State.regsUpTo, State.reg]

/-- LD B,Vx stores three bytes (R135). -/
@[simp] theorem decimalDigits_length (b : Byte) : (decimalDigits b).length = 3 := rfl

/-- The two answers of a fetch (R55). -/
theorem fetch_cases (s : State) :
    (s.pc.toNat ≤ 4094 ∧
      fetch s = .ok (wordOfBytes (s.mem.read s.pc.toNat) (s.mem.read (s.pc.toNat + 1)))) ∨
    (4094 < s.pc.toNat ∧ fetch s = .error (.fetchOutOfRange s.pc.toNat)) := by
  by_cases h : s.pc.toNat ≤ 4094
  · exact .inl ⟨h, by simp [fetch, h]⟩
  · exact .inr ⟨by omega, by simp [fetch, h]⟩

end Sys2Proof.Machine
end

