-- ==== Sys2Proof/Laws/Cycle.lean ====
section
/-! SUPPORT. Everything an instruction step and a step of the machine can do. -/

namespace Sys2Proof.Machine

/-- The fetch reads the word at `PC`. -/
theorem fetch_wordAt (s : State) (h : s.pc.toNat ≤ 4094) : fetch s = .ok (s.wordAt s.pc.toNat) := by
  simp [fetch, h, State.wordAt]

/-- The three answers of an instruction step (R100): the fetch faults, the word is unknown, or the decoded
instruction runs. -/
theorem fetchDecodeExecute_cases (s : State) :
    (4094 < s.pc.toNat ∧
      fetchDecodeExecute s = .next (takeFault (.fetchOutOfRange s.pc.toNat) none s)) ∨
    (s.pc.toNat ≤ 4094 ∧ (∃ e, decode (s.wordAt s.pc.toNat) = .error e) ∧
      fetchDecodeExecute s =
        .next (takeFault .unknownOpcode (some (s.wordAt s.pc.toNat)) s)) ∨
    (s.pc.toNat ≤ 4094 ∧ ∃ i, decode (s.wordAt s.pc.toNat) = .ok i ∧
      fetchDecodeExecute s = exec i s) := by
  by_cases h : s.pc.toNat ≤ 4094
  · right
    cases hd : decode (s.wordAt s.pc.toNat) with
    | error e => exact .inl ⟨h, ⟨e, rfl⟩, by simp [fetchDecodeExecute, fetch_wordAt s h, hd]⟩
    | ok i => exact .inr ⟨h, i, rfl, by simp [fetchDecodeExecute, fetch_wordAt s h, hd]⟩
  · left
    rcases fetch_cases s with ⟨h', _⟩ | ⟨h', hf⟩
    · omega
    · exact ⟨h', by simp [fetchDecodeExecute, hf]⟩

/-- The four kinds of event (R179), for any batch length and input: nothing, the top of a cycle, an instruction
step, the end of a cycle. -/
theorem stepWith_cases (ipc : Nat) (inp : HostInput) (s : State) :
    (s.halted = true ∧ stepWith ipc inp s = .next s) ∨
    (s.halted = false ∧ s.phase = .cycleTop ∧ stepWith ipc inp s = .next (topOfCycle ipc inp s)) ∨
    (∃ n, s.halted = false ∧ s.phase = .batch (n + 1) ∧ s.enabled = true ∧
      stepWith ipc inp s = fetchDecodeExecute (beginStep n s)) ∨
    (∃ n, s.halted = false ∧ s.phase = .batch n ∧ (n = 0 ∨ s.enabled = false) ∧
      stepWith ipc inp s = .next (endOfCycle s)) := by
  cases hh : s.halted with
  | true => exact .inl ⟨rfl, by simp [stepWith, nextEvent, hh]⟩
  | false =>
    right
    cases hp : s.phase with
    | cycleTop => exact .inl ⟨rfl, rfl, by simp [stepWith, nextEvent, hh, hp]⟩
    | batch n =>
      right
      cases n with
      | zero => exact .inr ⟨0, rfl, rfl, .inl rfl, by simp [stepWith, nextEvent, hh, hp]⟩
      | succ n =>
        cases he : s.enabled with
        | true =>
          exact .inl ⟨n, rfl, rfl, rfl, by
            simp [stepWith, nextEvent, hh, hp, he, instructionStep]⟩
        | false =>
          exact .inr ⟨n + 1, rfl, rfl, .inr rfl, by simp [stepWith, nextEvent, hh, hp, he]⟩

/-- The four kinds of step of the machine (R179). -/
theorem step_cases (s : State) :
    (s.halted = true ∧ step s = .next s) ∨
    (s.halted = false ∧ s.phase = .cycleTop ∧
      step s = .next (topOfCycle Config.ipc (Config.hostInput s.samples) s)) ∨
    (∃ n, s.halted = false ∧ s.phase = .batch (n + 1) ∧ s.enabled = true ∧
      step s = fetchDecodeExecute (beginStep n s)) ∨
    (∃ n, s.halted = false ∧ s.phase = .batch n ∧ (n = 0 ∨ s.enabled = false) ∧
      step s = .next (endOfCycle s)) :=
  stepWith_cases Config.ipc (Config.hostInput s.samples) s

/-- The three outcomes of the top of a cycle (R179 steps 3 to 5). -/
theorem topOfCycle_cases (ipc : Nat) (inp : HostInput) (s : State) :
    (applyControl (controlOf inp) s.rs = .stopped ∧
      topOfCycle ipc inp s = inputSample inp { s with outputs := [] }) ∨
    (applyControl (controlOf inp) s.rs = .paused ∧
      topOfCycle ipc inp s = presentRequest (inputSample inp { s with outputs := [] })) ∨
    (applyControl (controlOf inp) s.rs = .running ∧
      topOfCycle ipc inp s =
        { completeKeyWait s.keys (inputSample inp { s with outputs := [] }) with
          phase := .batch ipc }) := by
  cases h : applyControl (controlOf inp) s.rs with
  | stopped => exact .inl ⟨rfl, by simp [topOfCycle, inputSample, h]⟩
  | paused => exact .inr (.inl ⟨rfl, by simp [topOfCycle, inputSample, h]⟩)
  | running => exact .inr (.inr ⟨rfl, by simp [topOfCycle, inputSample, h]⟩)

/-- The end of a Running cycle as one update (R179 steps 7 and 8). -/
theorem endOfCycle_running (s : State) (h : s.rs = .running) :
    endOfCycle s =
      { s with
        dt := countDown s.dt
        st := countDown s.st
        redraw := false
        phase := .cycleTop
        outputs := if s.redraw then [.presentRequest] else [] } := by
  cases hd : s.redraw <;> simp [endOfCycle, h, hd, tick, presentRequest, State.emit]

/-- The end of a cycle that is not Running only ends it. -/
theorem endOfCycle_other (s : State) (h : s.rs ≠ .running) :
    endOfCycle s = { s with phase := .cycleTop, outputs := [] } := by
  simp [endOfCycle, h]

/-- The key found is the lowest-numbered newly pressed one (R163). -/
theorem newlyPressed_some (old new : Keys) (k : KeyIx) :
    newlyPressed old new = some k ↔
      old[k.val] = false ∧ new[k.val] = true ∧
        ∀ j : KeyIx, j < k → ¬(old[j.val] = false ∧ new[j.val] = true) := by
  unfold newlyPressed
  rw [List.find?_eq_some_iff_getElem]
  simp only [Bool.and_eq_true, Bool.not_eq_true', List.length_finRange, List.getElem_finRange,
    Bool.not_and, Bool.not_not, Bool.or_eq_true, and_assoc]
  constructor
  · rintro ⟨a, b, i, h, rfl, hh⟩
    refine ⟨a, b, fun j hj e => ?_⟩
    have := hh j.val (Fin.lt_def.mp hj)
    simp_all
  · rintro ⟨a, b, c⟩
    refine ⟨a, b, k.val, by simp, rfl, fun j hj => ?_⟩
    have h := c ⟨j, by omega⟩ (Fin.lt_def.mpr hj)
    rw [not_and, Bool.not_eq_true] at h
    cases ho : old[j] with
    | true => exact .inl ho
    | false => exact .inr (by simpa using h ho)

/-- No key is found exactly when none is newly pressed (R163). -/
theorem newlyPressed_none (old new : Keys) :
    newlyPressed old new = none ↔
      ∀ k : KeyIx, ¬(old[k.val] = false ∧ new[k.val] = true) := by
  unfold newlyPressed
  rw [List.find?_eq_none]
  simp

/-- The two outcomes of looking for a key-wait completion (R163). -/
theorem completeKeyWait_cases (old : Keys) (s : State) :
    ((s.wait = none ∨ newlyPressed old s.keys = none) ∧ completeKeyWait old s = s) ∨
    (∃ r k, s.wait = some r ∧ newlyPressed old s.keys = some k ∧
      completeKeyWait old s =
        State.advance { s.setReg r (keyByte k) with wait := none }) := by
  unfold completeKeyWait
  split
  · exact .inr ⟨_, _, ‹_›, ‹_›, rfl⟩
  · rename_i hne
    refine .inl ⟨?_, rfl⟩
    cases hw : s.wait with
    | none => exact .inl rfl
    | some r =>
      cases hk : newlyPressed old s.keys with
      | none => exact .inr rfl
      | some k => exact absurd hk (hne r k hw)

end Sys2Proof.Machine
end

