-- ==== Sys2Proof/Laws/Encoding.lean ====
section
/-! SUPPORT. Words as numbers, what the decoder takes from an encoded word, and what dispatch can answer. -/

namespace Sys2Proof

/-- The number of a word of format NNN. -/
theorem wordNNN_toNat (f : BitVec 4) (k : BitVec 12) :
    (wordNNN f k).toNat = f.toNat * 4096 + k.toNat := by
  have h := BitVec.toNat_append f k
  have hk := k.isLt
  rw [← Nat.shiftLeft_add_eq_or_of_lt hk, Nat.shiftLeft_eq] at h
  simpa [wordNNN] using h

/-- The number of a word of format XNN. -/
theorem wordXNN_toNat (f : BitVec 4) (x : RegIx) (k : Byte) :
    (wordXNN f x k).toNat = f.toNat * 4096 + x.val * 256 + k.toNat := by
  have h := BitVec.toNat_append f ((BitVec.ofFin x : BitVec 4) ++ k)
  have h' := BitVec.toNat_append (BitVec.ofFin x : BitVec 4) k
  have hk := k.isLt
  have hx := x.isLt
  rw [← Nat.shiftLeft_add_eq_or_of_lt hk, Nat.shiftLeft_eq] at h'
  rw [← Nat.shiftLeft_add_eq_or_of_lt (by rw [h']; simp; omega), Nat.shiftLeft_eq, h'] at h
  simp only [wordXNN]
  rw [h]; simp; omega

/-- The number of a word of format XYN. -/
theorem wordXYN_toNat (f : BitVec 4) (x y : RegIx) (n : BitVec 4) :
    (wordXYN f x y n).toNat = f.toNat * 4096 + x.val * 256 + y.val * 16 + n.toNat := by
  have h := wordXNN_toNat f x ((BitVec.ofFin y : BitVec 4) ++ n)
  have h' := BitVec.toNat_append (BitVec.ofFin y : BitVec 4) n
  rw [← Nat.shiftLeft_add_eq_or_of_lt n.isLt, Nat.shiftLeft_eq] at h'
  simp only [wordXNN, wordXYN] at h ⊢
  rw [h, h']; simp; omega

/-- The fields of a word as numbers (R71). -/
theorem fieldsOf_toNat (op : Word) :
    (fieldsOf op).op = op ∧ (fieldsOf op).family.toNat = op.toNat / 4096 ∧
    (fieldsOf op).x.val = op.toNat / 256 % 16 ∧ (fieldsOf op).y.val = op.toNat / 16 % 16 ∧
    (fieldsOf op).n.toNat = op.toNat % 16 ∧ (fieldsOf op).nn.toNat = op.toNat % 256 ∧
    (fieldsOf op).nnn.toNat = op.toNat % 4096 := by
  have h := op.isLt
  simp [fieldsOf, BitVec.extractLsb'_toNat, Nat.shiftRight_eq_div_pow]
  omega

/-- The decoder takes from a word of format NNN what was put into it. -/
theorem fieldsOf_wordNNN (f : BitVec 4) (k : BitVec 12) :
    (fieldsOf (wordNNN f k)).family = f ∧ (fieldsOf (wordNNN f k)).nnn = k := by
  have h := fieldsOf_toNat (wordNNN f k)
  rw [wordNNN_toNat] at h
  have := f.isLt; have := k.isLt
  refine ⟨BitVec.eq_of_toNat_eq ?_, BitVec.eq_of_toNat_eq ?_⟩ <;> omega

/-- The decoder takes from a word of format XNN what was put into it. -/
theorem fieldsOf_wordXNN (f : BitVec 4) (x : RegIx) (k : Byte) :
    (fieldsOf (wordXNN f x k)).family = f ∧ (fieldsOf (wordXNN f x k)).x = x ∧
    (fieldsOf (wordXNN f x k)).nn = k := by
  have h := fieldsOf_toNat (wordXNN f x k)
  rw [wordXNN_toNat] at h
  have := f.isLt; have := k.isLt; have := x.isLt
  refine ⟨BitVec.eq_of_toNat_eq ?_, Fin.ext ?_, BitVec.eq_of_toNat_eq ?_⟩ <;> omega

/-- The decoder takes from a word of format XYN what was put into it. -/
theorem fieldsOf_wordXYN (f : BitVec 4) (x y : RegIx) (n : BitVec 4) :
    (fieldsOf (wordXYN f x y n)).family = f ∧ (fieldsOf (wordXYN f x y n)).x = x ∧
    (fieldsOf (wordXYN f x y n)).y = y ∧ (fieldsOf (wordXYN f x y n)).n = n := by
  have h := fieldsOf_toNat (wordXYN f x y n)
  rw [wordXYN_toNat] at h
  have := f.isLt; have := n.isLt; have := x.isLt; have := y.isLt
  refine ⟨BitVec.eq_of_toNat_eq ?_, Fin.ext ?_, Fin.ext ?_, BitVec.eq_of_toNat_eq ?_⟩ <;> omega

/-- The two bytes of a word give it back (20_memory.md R52). -/
theorem wordOfBytes_high_low (op : Word) : wordOfBytes (highByte op) (lowByte op) = op := by
  have h := BitVec.toNat_append (highByte op) (lowByte op)
  have hop := op.isLt
  rw [← Nat.shiftLeft_add_eq_or_of_lt (lowByte op).isLt, Nat.shiftLeft_eq] at h
  apply BitVec.eq_of_toNat_eq
  simp only [wordOfBytes]
  rw [h]
  simp [highByte, lowByte, BitVec.extractLsb'_toNat, Nat.shiftRight_eq_div_pow]
  omega

/-- What family 0x8 selects has the word's own fields. -/
theorem selectArith_ok (f : Fields) (i) (h : selectArith f = .ok i) : encode i = wordXYN 0x8#4 f.x f.y f.n := by
  unfold selectArith at h
  split_ifs at h <;> cases h <;> simp [encode, *]
/-- What family 0xE selects has the word's own fields. -/
theorem selectKey_ok (f : Fields) (i) (h : selectKey f = .ok i) : encode i = wordXNN 0xE#4 f.x f.nn := by
  unfold selectKey at h
  split_ifs at h <;> cases h <;> simp [encode, *]
/-- What family 0xF selects has the word's own fields. -/
theorem selectMisc_ok (f : Fields) (i) (h : selectMisc f = .ok i) : encode i = wordXNN 0xF#4 f.x f.nn := by
  unfold selectMisc at h
  split_ifs at h <;> cases h <;> simp [encode, *]

/-- Everything dispatch can answer (R74): each family and selector with its instruction. -/
theorem select_cases (f : Fields) (i : Instr) (h : select f = .ok i) :
    (f.family = 0x0#4 ∧ f.op = 0x00E0#16 ∧ i = .cls) ∨ (f.family = 0x0#4 ∧ f.op = 0x00EE#16 ∧ i = .ret) ∨
    (f.family = 0x1#4 ∧ i = .jp f.nnn) ∨ (f.family = 0x2#4 ∧ i = .call f.nnn) ∨
    (f.family = 0x3#4 ∧ i = .seImm f.x f.nn) ∨ (f.family = 0x4#4 ∧ i = .sneImm f.x f.nn) ∨
    (f.family = 0x5#4 ∧ f.n = 0x0#4 ∧ i = .seReg f.x f.y) ∨
    (f.family = 0x6#4 ∧ i = .ldImm f.x f.nn) ∨ (f.family = 0x7#4 ∧ i = .addImm f.x f.nn) ∨
    (f.family = 0x8#4 ∧ selectArith f = .ok i) ∨
    (f.family = 0x9#4 ∧ f.n = 0x0#4 ∧ i = .sneReg f.x f.y) ∨
    (f.family = 0xA#4 ∧ i = .ldI f.nnn) ∨ (f.family = 0xB#4 ∧ i = .jpV0 f.nnn) ∨
    (f.family = 0xC#4 ∧ i = .rnd f.x f.nn) ∨ (f.family = 0xD#4 ∧ i = .drw f.x f.y f.n) ∨
    (f.family = 0xE#4 ∧ selectKey f = .ok i) ∨ (f.family = 0xF#4 ∧ selectMisc f = .ok i) := by
  have hb := f.family.isLt
  unfold select at h
  generalize hA : selectArith f = A at *
  generalize hK : selectKey f = K at *
  generalize hM : selectMisc f = M at *
  obtain ⟨op, family, x, y, n, nn, nnn⟩ := f
  simp only at *
  clear hA hK hM
  obtain ⟨k, rfl⟩ : ∃ k : Fin 16, family = BitVec.ofFin k := ⟨family.toFin, rfl⟩
  fin_cases k <;> simp at h ⊢ <;> (try split at h) <;> (try split at h) <;> simp_all

/-- The one way dispatch rejects: the word by name (R76). -/
theorem select_error (f : Fields) (e : DecodeError) (h : select f = .error e) :
    e = .unknownOpcode f.op := by
  have hA : ∀ e, selectArith f = .error e → e = .unknownOpcode f.op := by
    intro e h
    unfold selectArith at h
    repeat' (split at h; · simp at h)
    injection h with h
    exact h.symm
  have hK : ∀ e, selectKey f = .error e → e = .unknownOpcode f.op := by
    intro e h
    unfold selectKey at h
    repeat' (split at h; · simp at h)
    injection h with h
    exact h.symm
  have hM : ∀ e, selectMisc f = .error e → e = .unknownOpcode f.op := by
    intro e h
    unfold selectMisc at h
    repeat' (split at h; · simp at h)
    injection h with h
    exact h.symm
  unfold select at h
  generalize selectArith f = A at *
  generalize selectKey f = K at *
  generalize selectMisc f = M at *
  obtain ⟨op, family, x, y, n, nn, nnn⟩ := f
  simp only at *
  obtain ⟨k, rfl⟩ : ∃ k : Fin 16, family = BitVec.ofFin k := ⟨family.toFin, rfl⟩
  fin_cases k <;> simp at h <;> first
    | exact hA _ h
    | exact hK _ h
    | exact hM _ h
    | (split at h <;> first
        | (injection h with h; exact h.symm)
        | (split at h <;> first
            | (injection h with h; exact h.symm)
            | simp at h)
        | simp at h)

end Sys2Proof
end

