-- ==== Sys2Proof/Laws/PerInstr.lean ====
section
/-! SUPPORT. Per instruction: its encoding selects its own row of the opcode map (spec/30_encoding.md R75). -/

namespace Sys2Proof

/-- The family's mask on format NNN keeps the family. -/
theorem wordNNN_mask (f : BitVec 4) (k : BitVec 12) : wordNNN f k &&& 0xF000#16 = wordNNN f 0 := by
  have h : 0xF000#16 = 0xF#4 ++ 0x000#12 := by decide
  rw [h]
  simp only [wordNNN]
  rw [BitVec.and_append]
  congr 1
  · exact BitVec.and_allOnes
  · exact BitVec.and_zero

/-- The family's mask on format XNN keeps the family. -/
theorem wordXNN_mask (f : BitVec 4) (x : RegIx) (k : Byte) :
    wordXNN f x k &&& 0xF000#16 = wordNNN f 0 :=
  wordNNN_mask f _

/-- The mask of the rows with an 8-bit selector keeps family and selector. -/
theorem wordX_mask (f : BitVec 4) (x : RegIx) (k : Byte) :
    wordXNN f x k &&& 0xF0FF#16 = wordXNN f 0 k := by
  have h : 0xF0FF#16 = 0xF#4 ++ (0x0#4 ++ 0xFF#8) := by decide
  rw [h]
  simp only [wordXNN]
  rw [BitVec.and_append, BitVec.and_append]
  congr 1
  · exact BitVec.and_allOnes
  · congr 1
    · exact BitVec.and_zero
    · exact BitVec.and_allOnes

/-- The mask of the rows with a 4-bit selector keeps family and selector. -/
theorem wordXYN_mask (f : BitVec 4) (x y : RegIx) (n : BitVec 4) :
    wordXYN f x y n &&& 0xF00F#16 = wordXYN f 0 0 n := by
  have h : 0xF00F#16 = 0xF#4 ++ (0x0#4 ++ (0x0#4 ++ 0xF#4)) := by decide
  rw [h]
  simp only [wordXYN]
  rw [BitVec.and_append, BitVec.and_append, BitVec.and_append]
  congr 1
  · exact BitVec.and_allOnes
  · congr 1
    · exact BitVec.and_zero
    · congr 1
      · exact BitVec.and_zero
      · exact BitVec.and_allOnes

namespace Laws.EncodesItsRow

/-- The instruction has a row of R75, and its word selects that row. -/
def Statement (i : Instr) : Prop := ∃ r, i.row = some r ∧ r.selects (encode i) = true

theorem cls : Statement (.cls) := ⟨_, rfl, by decide⟩

theorem ret : Statement (.ret) := ⟨_, rfl, by decide⟩

theorem jp (nnn : BitVec 12) : Statement (.jp nnn) := by
  refine ⟨_, rfl, ?_⟩
  exact beq_iff_eq.mpr ((wordNNN_mask 0x1#4 nnn).trans (by decide))

theorem call (nnn : BitVec 12) : Statement (.call nnn) := by
  refine ⟨_, rfl, ?_⟩
  exact beq_iff_eq.mpr ((wordNNN_mask 0x2#4 nnn).trans (by decide))

theorem seImm (x : RegIx) (nn : Byte) : Statement (.seImm x nn) := by
  refine ⟨_, rfl, ?_⟩
  exact beq_iff_eq.mpr ((wordXNN_mask 0x3#4 x nn).trans (by decide))

theorem sneImm (x : RegIx) (nn : Byte) : Statement (.sneImm x nn) := by
  refine ⟨_, rfl, ?_⟩
  exact beq_iff_eq.mpr ((wordXNN_mask 0x4#4 x nn).trans (by decide))

theorem seReg (x y : RegIx) : Statement (.seReg x y) := by
  refine ⟨_, rfl, ?_⟩
  exact beq_iff_eq.mpr ((wordXYN_mask 0x5#4 x y 0x0#4).trans (by decide))

theorem ldImm (x : RegIx) (nn : Byte) : Statement (.ldImm x nn) := by
  refine ⟨_, rfl, ?_⟩
  exact beq_iff_eq.mpr ((wordXNN_mask 0x6#4 x nn).trans (by decide))

theorem addImm (x : RegIx) (nn : Byte) : Statement (.addImm x nn) := by
  refine ⟨_, rfl, ?_⟩
  exact beq_iff_eq.mpr ((wordXNN_mask 0x7#4 x nn).trans (by decide))

theorem ldReg (x y : RegIx) : Statement (.ldReg x y) := by
  refine ⟨_, rfl, ?_⟩
  exact beq_iff_eq.mpr ((wordXYN_mask 0x8#4 x y 0x0#4).trans (by decide))

theorem orReg (x y : RegIx) : Statement (.orReg x y) := by
  refine ⟨_, rfl, ?_⟩
  exact beq_iff_eq.mpr ((wordXYN_mask 0x8#4 x y 0x1#4).trans (by decide))

theorem andReg (x y : RegIx) : Statement (.andReg x y) := by
  refine ⟨_, rfl, ?_⟩
  exact beq_iff_eq.mpr ((wordXYN_mask 0x8#4 x y 0x2#4).trans (by decide))

theorem xorReg (x y : RegIx) : Statement (.xorReg x y) := by
  refine ⟨_, rfl, ?_⟩
  exact beq_iff_eq.mpr ((wordXYN_mask 0x8#4 x y 0x3#4).trans (by decide))

theorem addReg (x y : RegIx) : Statement (.addReg x y) := by
  refine ⟨_, rfl, ?_⟩
  exact beq_iff_eq.mpr ((wordXYN_mask 0x8#4 x y 0x4#4).trans (by decide))

theorem subReg (x y : RegIx) : Statement (.subReg x y) := by
  refine ⟨_, rfl, ?_⟩
  exact beq_iff_eq.mpr ((wordXYN_mask 0x8#4 x y 0x5#4).trans (by decide))

theorem shr (x y : RegIx) : Statement (.shr x y) := by
  refine ⟨_, rfl, ?_⟩
  exact beq_iff_eq.mpr ((wordXYN_mask 0x8#4 x y 0x6#4).trans (by decide))

theorem subnReg (x y : RegIx) : Statement (.subnReg x y) := by
  refine ⟨_, rfl, ?_⟩
  exact beq_iff_eq.mpr ((wordXYN_mask 0x8#4 x y 0x7#4).trans (by decide))

theorem shl (x y : RegIx) : Statement (.shl x y) := by
  refine ⟨_, rfl, ?_⟩
  exact beq_iff_eq.mpr ((wordXYN_mask 0x8#4 x y 0xE#4).trans (by decide))

theorem sneReg (x y : RegIx) : Statement (.sneReg x y) := by
  refine ⟨_, rfl, ?_⟩
  exact beq_iff_eq.mpr ((wordXYN_mask 0x9#4 x y 0x0#4).trans (by decide))

theorem ldI (nnn : BitVec 12) : Statement (.ldI nnn) := by
  refine ⟨_, rfl, ?_⟩
  exact beq_iff_eq.mpr ((wordNNN_mask 0xA#4 nnn).trans (by decide))

theorem jpV0 (nnn : BitVec 12) : Statement (.jpV0 nnn) := by
  refine ⟨_, rfl, ?_⟩
  exact beq_iff_eq.mpr ((wordNNN_mask 0xB#4 nnn).trans (by decide))

theorem rnd (x : RegIx) (nn : Byte) : Statement (.rnd x nn) := by
  refine ⟨_, rfl, ?_⟩
  exact beq_iff_eq.mpr ((wordXNN_mask 0xC#4 x nn).trans (by decide))

theorem drw (x y : RegIx) (n : BitVec 4) : Statement (.drw x y n) := by
  refine ⟨_, rfl, ?_⟩
  exact beq_iff_eq.mpr ((wordNNN_mask 0xD#4 _).trans (by decide))

theorem skp (x : RegIx) : Statement (.skp x) := by
  refine ⟨_, rfl, ?_⟩
  exact beq_iff_eq.mpr ((wordX_mask 0xE#4 x 0x9E#8).trans (by decide))

theorem sknp (x : RegIx) : Statement (.sknp x) := by
  refine ⟨_, rfl, ?_⟩
  exact beq_iff_eq.mpr ((wordX_mask 0xE#4 x 0xA1#8).trans (by decide))

theorem ldVxDt (x : RegIx) : Statement (.ldVxDt x) := by
  refine ⟨_, rfl, ?_⟩
  exact beq_iff_eq.mpr ((wordX_mask 0xF#4 x 0x07#8).trans (by decide))

theorem ldVxK (x : RegIx) : Statement (.ldVxK x) := by
  refine ⟨_, rfl, ?_⟩
  exact beq_iff_eq.mpr ((wordX_mask 0xF#4 x 0x0A#8).trans (by decide))

theorem ldDtVx (x : RegIx) : Statement (.ldDtVx x) := by
  refine ⟨_, rfl, ?_⟩
  exact beq_iff_eq.mpr ((wordX_mask 0xF#4 x 0x15#8).trans (by decide))

theorem ldStVx (x : RegIx) : Statement (.ldStVx x) := by
  refine ⟨_, rfl, ?_⟩
  exact beq_iff_eq.mpr ((wordX_mask 0xF#4 x 0x18#8).trans (by decide))

theorem addI (x : RegIx) : Statement (.addI x) := by
  refine ⟨_, rfl, ?_⟩
  exact beq_iff_eq.mpr ((wordX_mask 0xF#4 x 0x1E#8).trans (by decide))

theorem ldF (x : RegIx) : Statement (.ldF x) := by
  refine ⟨_, rfl, ?_⟩
  exact beq_iff_eq.mpr ((wordX_mask 0xF#4 x 0x29#8).trans (by decide))

theorem ldB (x : RegIx) : Statement (.ldB x) := by
  refine ⟨_, rfl, ?_⟩
  exact beq_iff_eq.mpr ((wordX_mask 0xF#4 x 0x33#8).trans (by decide))

theorem ldMemVx (x : RegIx) : Statement (.ldMemVx x) := by
  refine ⟨_, rfl, ?_⟩
  exact beq_iff_eq.mpr ((wordX_mask 0xF#4 x 0x55#8).trans (by decide))

theorem ldVxMem (x : RegIx) : Statement (.ldVxMem x) := by
  refine ⟨_, rfl, ?_⟩
  exact beq_iff_eq.mpr ((wordX_mask 0xF#4 x 0x65#8).trans (by decide))

end Laws.EncodesItsRow

end Sys2Proof
end

