-- ==== Sys2Proof/Tests/Slice0.lean ====
section
/-! SUPPORT. Checks on fixed values, taken from the vectors of spec/95_test_vectors.md, and one named witness for the hypotheses of
each claim that has some. -/

namespace Sys2Proof.Tests

open Sys2Proof Sys2Proof.Machine

/-! Ill-formed words: one for each line of R76's table (vectors U-1 to U-8). -/

theorem test_illformed_family0 : wellFormedWord 0x0000#16 = false ∧ wellFormedWord 0x0123#16 = false := by decide

theorem test_illformed_family0_near : wellFormedWord 0x00E1#16 = false ∧ wellFormedWord 0x00EF#16 = false := by decide

theorem test_illformed_family5 : wellFormedWord 0x5121#16 = false := by decide

theorem test_illformed_family8 : wellFormedWord 0x8128#16 = false ∧ wellFormedWord 0x812F#16 = false := by decide

theorem test_illformed_family9 : wellFormedWord 0x9AB1#16 = false := by decide

theorem test_illformed_familyE : wellFormedWord 0xE19F#16 = false := by decide

theorem test_illformed_familyF : wellFormedWord 0xF100#16 = false := by decide

/-- The decoder refuses the same words, by name. -/
theorem test_decode_refuses :
    [0x0000#16, 0x0123#16, 0x00E1#16, 0x5121#16, 0x8128#16, 0x9AB1#16, 0xE19F#16, 0xF100#16].all
      (fun op => decode op == .error (.unknownOpcode op)) = true := by decide

/-! Every constructor's decoding, from a word written out bit by bit from its row of R75. -/

theorem test_decode_cls : decode 0b0000000011100000#16 = .ok .cls := by decide

theorem test_decode_ret : decode 0b0000000011101110#16 = .ok .ret := by decide

theorem test_decode_jp : decode 0b0001101000000101#16 = .ok (.jp 0xA05#12) := by decide

theorem test_decode_call : decode 0b0010001100000001#16 = .ok (.call 0x301#12) := by decide

theorem test_decode_seImm : decode 0b0011000101000010#16 = .ok (.seImm 1 0x42#8) := by decide

theorem test_decode_sneImm : decode 0b0100111010000001#16 = .ok (.sneImm 14 0x81#8) := by decide

theorem test_decode_seReg : decode 0b0101001000110000#16 = .ok (.seReg 2 3) := by decide

theorem test_decode_ldImm : decode 0b0110101000101011#16 = .ok (.ldImm 10 0x2B#8) := by decide

theorem test_decode_addImm : decode 0b0111001100100000#16 = .ok (.addImm 3 0x20#8) := by decide

theorem test_decode_ldReg : decode 0b1000001101000000#16 = .ok (.ldReg 3 4) := by decide

theorem test_decode_orReg : decode 0b1000000100100001#16 = .ok (.orReg 1 2) := by decide

theorem test_decode_andReg : decode 0b1000000100100010#16 = .ok (.andReg 1 2) := by decide

theorem test_decode_xorReg : decode 0b1000000100100011#16 = .ok (.xorReg 1 2) := by decide

theorem test_decode_addReg : decode 0b1000111100010100#16 = .ok (.addReg 15 1) := by decide

theorem test_decode_subReg : decode 0b1000000100100101#16 = .ok (.subReg 1 2) := by decide

theorem test_decode_shr : decode 0b1000000100100110#16 = .ok (.shr 1 2) := by decide

theorem test_decode_subnReg : decode 0b1000000100100111#16 = .ok (.subnReg 1 2) := by decide

theorem test_decode_shl : decode 0b1000000100101110#16 = .ok (.shl 1 2) := by decide

theorem test_decode_sneReg : decode 0b1001001000110000#16 = .ok (.sneReg 2 3) := by decide

theorem test_decode_ldI : decode 0b1010001011110000#16 = .ok (.ldI 0x2F0#12) := by decide

theorem test_decode_jpV0 : decode 0b1011001100000000#16 = .ok (.jpV0 0x300#12) := by decide

theorem test_decode_rnd : decode 0b1100001100001111#16 = .ok (.rnd 3 0x0F#8) := by decide

theorem test_decode_drw : decode 0b1101000100100101#16 = .ok (.drw 1 2 5#4) := by decide

theorem test_decode_skp : decode 0b1110001010011110#16 = .ok (.skp 2) := by decide

theorem test_decode_sknp : decode 0b1110001010100001#16 = .ok (.sknp 2) := by decide

theorem test_decode_ldVxDt : decode 0b1111001100000111#16 = .ok (.ldVxDt 3) := by decide

theorem test_decode_ldVxK : decode 0b1111001100001010#16 = .ok (.ldVxK 3) := by decide

theorem test_decode_ldDtVx : decode 0b1111001100010101#16 = .ok (.ldDtVx 3) := by decide

theorem test_decode_ldStVx : decode 0b1111001000011000#16 = .ok (.ldStVx 2) := by decide

theorem test_decode_addI : decode 0b1111001000011110#16 = .ok (.addI 2) := by decide

theorem test_decode_ldF : decode 0b1111010000101001#16 = .ok (.ldF 4) := by decide

theorem test_decode_ldB : decode 0b1111010100110011#16 = .ok (.ldB 5) := by decide

theorem test_decode_ldMemVx : decode 0b1111001001010101#16 = .ok (.ldMemVx 2) := by decide

theorem test_decode_ldVxMem : decode 0b1111111101100101#16 = .ok (.ldVxMem 15) := by decide

/-- The bytes of a program are read high byte first, and the rest is handed on (R52, R70). -/
theorem test_decodeBytes_order :
    decodeBytes [0x12#8, 0x34#8, 0x60#8] = .ok (.jp 0x234#12, [0x60#8]) ∧
      decodeBytes [0x12#8] = .error .truncated := by decide

/-- The opcode table's numbering of a word. -/
theorem test_decodeTableWord :
    decodeTableWord 16 0x6A2B = some (.ldImm 10 0x2B#8) ∧ decodeTableWord 16 0x0000 = none := by
  decide

/-! Small states and single steps. -/

/-- Reset with some registers preset. -/
def regs (l : List (RegIx × Byte)) : State := l.foldl (fun s p => s.setReg p.1 p.2) State.reset

/-- A state with `I` set and bytes placed at an address. -/
def withBytes (i : Word) (base : Nat) (bytes : List Byte) (s : State) : State :=
  { s with iReg := i, mem := s.mem.writeBytes base bytes }

/-- A keypad with some keys down. -/
def keysDown (l : List KeyIx) : Keys := Vector.ofFn fun k => decide (k ∈ l)

/-- A framebuffer with some pixels set, given as row and column. -/
def frameOf (l : List (Nat × Nat)) : Frame :=
  Vector.ofFn fun r => Vector.ofFn fun c => decide ((r.val, c.val) ∈ l)

/-- Some pixels of a framebuffer, given as row and column. -/
def pixels (fb : Frame) (l : List (Nat × Nat)) : List Bool := l.map fun p => pixel fb p.1 p.2

/-- The next state, if that is the answer. -/
def nextOf : Result → Option State
  | .next t => some t
  | .fault _ => none
  | .refused _ => none

/-- One step that fetches `w` at `PC`. -/
def ran (w : Nat) (s : State) : Option State := nextOf (step (s.withFetchWord 16 w))

/-- The parts of a fault record the vectors name: code, `pc`, `opcode`. -/
def recordOf (s : State) : Option (Nat × Word × Option Word) :=
  s.fault.map fun r => (r.cause.code, r.pc, r.opcode)

/-! Control flow (vectors C). -/

/-- C-1 -/
theorem test_jp : (ran 0x1234 State.reset).map (·.pc) = some 0x0234 := by decide

/-- C-16: the next fetch faults. -/
theorem test_jp_then_fetch_fault :
    ((ran 0x1FFF State.reset).bind fun t => nextOf (stepWith 4 default { t with phase := .batch 1 })).map
      (fun t => (recordOf t, t.pc, t.rs)) = some (some (4, 0x0FFF, none), 0x0FFF, .stopped) := by decide

/-- C-2 -/
theorem test_call :
    (ran 0x2300 State.reset).map (fun t => (t.stack[0], t.sp, t.pc)) = some (0x0202, 1, 0x0300) := by
  decide

/-- C-3 -/
theorem test_call_full :
    (ran 0x2300 { State.reset with sp := 16 }).map (fun t => (recordOf t, t.sp, t.pc, t.stack)) =
      some (some (2, 0x0200, some 0x2300), 16, 0x0200, State.reset.stack) := by decide

/-- C-4 -/
theorem test_ret :
    (ran 0x00EE { State.reset with
      pc := 0x0300, sp := 1, stack := State.reset.stack.set 0 0x0202 }).map
      (fun t => (t.pc, t.sp)) = some (0x0202, 0) := by decide

/-- C-4b -/
theorem test_ret_empty :
    (ran 0x00EE State.reset).map (fun t => (recordOf t, t.rs, t.sp, t.pc)) =
      some (some (3, 0x0200, some 0x00EE), .stopped, 0, 0x0200) := by decide

/-- C-5, the document's own scenario -/
theorem test_seImm_taken : (ran 0x3142 (regs [(1, 0x42)])).map (·.pc) = some 0x0204 := by decide

/-- C-6 -/
theorem test_seImm_not : (ran 0x3142 (regs [(1, 0x41)])).map (·.pc) = some 0x0202 := by decide

/-- C-7 -/
theorem test_sneImm_taken : (ran 0x4142 (regs [(1, 0x41)])).map (·.pc) = some 0x0204 := by decide

/-- C-8 -/
theorem test_sneImm_not : (ran 0x4142 (regs [(1, 0x42)])).map (·.pc) = some 0x0202 := by decide

/-- C-9 -/
theorem test_seReg_taken : (ran 0x5230 (regs [(2, 7), (3, 7)])).map (·.pc) = some 0x0204 := by decide

/-- C-10 -/
theorem test_seReg_not : (ran 0x5230 (regs [(2, 7), (3, 8)])).map (·.pc) = some 0x0202 := by decide

/-- C-12 -/
theorem test_sneReg_taken : (ran 0x9230 (regs [(2, 7), (3, 8)])).map (·.pc) = some 0x0204 := by decide

/-- C-13 -/
theorem test_sneReg_not : (ran 0x9230 (regs [(2, 7), (3, 7)])).map (·.pc) = some 0x0202 := by decide

/-- C-14 -/
theorem test_jpV0 : (ran 0xB300 (regs [(0, 0x04)])).map (·.pc) = some 0x0304 := by decide

/-- C-15 -/
theorem test_jpV0_not_reduced : (ran 0xBFFF (regs [(0, 0xFF)])).map (·.pc) = some 0x10FE := by decide

/-- C-18: a fetch at an odd address. -/
theorem test_odd_fetch :
    (nextOf (step { withBytes 0 0x200 [0x12, 0x01, 0x60, 0xAB] State.reset with
      pc := 0x0201, phase := .batch 1 })).map recordOf =
      some (some (1, 0x0201, some 0x0160)) := by decide

/-- U-1: an empty program. -/
theorem test_unknown_opcode :
    (ran 0x0000 State.reset).map (fun t => (recordOf t, t.rs, t.pc, t.outputs)) =
      some (some (1, 0x0200, some 0x0000), .stopped, 0x0200, [.halted .unknownOpcode]) := by decide

/-! Arithmetic and logic (vectors A). -/

/-- A-1 -/
theorem test_ldImm : (ran 0x6A2B State.reset).map (fun t => (t.reg 10, t.pc)) = some (0x2B, 0x0202) := by
  decide

/-- C-17: the last address a word can be fetched from. -/
theorem test_ldImm_at_top :
    (ran 0x6A01 { State.reset with pc := 0x0FFE }).map (fun t => (t.reg 10, t.pc)) =
      some (0x01, 0x1000) := by decide

/-- A-3 with VF = 55: no flag is written. -/
theorem test_addImm_no_flag :
    (ran 0x73FF (regs [(3, 0x02), (15, 0x55)])).map (fun t => (t.reg 3, t.reg 15)) =
      some (0x01, 0x55) := by decide

/-- A-3b -/
theorem test_addImm_vf : (ran 0x7FFF (regs [(15, 0x01)])).map (fun t => t.reg 15) = some 0x00 := by decide

/-- A-4 -/
theorem test_ldReg :
    (ran 0x8340 (regs [(4, 0x09)])).map (fun t => (t.reg 3, t.reg 4)) = some (0x09, 0x09) := by decide

/-- A-5 -/
theorem test_orReg :
    (ran 0x8121 (regs [(1, 0x0F), (2, 0xF0), (15, 1)])).map (fun t => (t.reg 1, t.reg 15)) =
      some (0xFF, 1) := by decide

/-- A-5b -/
theorem test_andReg :
    (ran 0x8122 (regs [(1, 0x3C), (2, 0x0F), (15, 1)])).map (fun t => (t.reg 1, t.reg 15)) =
      some (0x0C, 1) := by decide

/-- A-6 -/
theorem test_xorReg :
    (ran 0x8123 (regs [(1, 0xFF), (2, 0x0F), (15, 1)])).map (fun t => (t.reg 1, t.reg 15)) =
      some (0xF0, 1) := by decide

/-- A-12: the old VF is the operand. -/
theorem test_addReg_vf_operand :
    (ran 0x81F4 (regs [(1, 0xFF), (15, 1)])).map (fun t => (t.reg 1, t.reg 15)) = some (0x00, 1) := by
  decide

/-- A-10: a sum of 255 does not carry. -/
theorem test_addReg_no_carry :
    (ran 0x8124 (regs [(1, 0xFF), (15, 1)])).map (fun t => (t.reg 1, t.reg 15)) = some (0xFF, 0) := by
  decide

/-- A-15 -/
theorem test_subReg_borrow :
    (ran 0x8125 (regs [(1, 0x03), (2, 0x0A)])).map (fun t => (t.reg 1, t.reg 15)) = some (0xF9, 0) := by
  decide

/-- A-18: the result FE is lost. -/
theorem test_subReg_vf : (ran 0x8F15 (regs [(15, 0x03), (1, 0x05)])).map (fun t => t.reg 15) = some 0 := by
  decide

/-- A-24: `y` is ignored. -/
theorem test_shr :
    (ran 0x8126 (regs [(1, 0x05), (2, 0xF0)])).map (fun t => (t.reg 1, t.reg 2, t.reg 15)) =
      some (0x02, 0xF0, 1) := by decide

/-- A-27: the result 01 is lost. -/
theorem test_shr_vf : (ran 0x8F06 (regs [(15, 0x02)])).map (fun t => t.reg 15) = some 0 := by decide

/-- A-20 -/
theorem test_subnReg :
    (ran 0x8127 (regs [(1, 0x03), (2, 0x0A)])).map (fun t => (t.reg 1, t.reg 15)) = some (0x07, 1) := by
  decide

/-- A-22: equal operands do not borrow. -/
theorem test_subnReg_equal :
    (ran 0x8117 (regs [(1, 0x33)])).map (fun t => (t.reg 1, t.reg 15)) = some (0x00, 1) := by decide

/-- A-28 -/
theorem test_shl :
    (ran 0x810E (regs [(1, 0x81)])).map (fun t => (t.reg 1, t.reg 15)) = some (0x02, 1) := by decide

/-- A-31: the result 82 is lost. -/
theorem test_shl_vf : (ran 0x8F0E (regs [(15, 0x41)])).map (fun t => t.reg 15) = some 0 := by decide

/-- A-32: the byte drawn is A7. -/
theorem test_rnd_masks : (randomMasked 0xA7 3 0x0F State.reset).reg 3 = 0x07 := by decide

/-- What a step of RND leaves beside the register. -/
theorem test_rnd_step :
    (ran 0xC30F State.reset).map (fun t => (t.draws, t.pc, t.reg 15)) = some (1, 0x0202, 0) := by decide

/-! Memory and index (vectors M). -/

/-- M-1 -/
theorem test_ldI :
    (ran 0xA2F0 { State.reset with iReg := 0xFFFF }).map (·.iReg) = some 0x02F0 := by decide

/-- M-3: no wrap at 12 bits, no flag. -/
theorem test_addI :
    (ran 0xF11E { regs [(1, 1), (15, 9)] with iReg := 0x0FFF }).map (fun t => (t.iReg, t.reg 15)) =
      some (0x1000, 9) := by decide

/-- M-4: wrap at 16 bits. -/
theorem test_addI_wraps :
    (ran 0xF11E { regs [(1, 1)] with iReg := 0xFFFF }).map (·.iReg) = some 0x0000 := by decide

/-- M-5 -/
theorem test_ldF : (ran 0xF429 (regs [(4, 0x0A)])).map (·.iReg) = some 0x0082 := by decide

/-- M-6: the high nibble is ignored. -/
theorem test_ldF_nibble : (ran 0xF429 (regs [(4, 0xFF)])).map (·.iReg) = some 0x009B := by decide

/-- M-8 -/
theorem test_ldMemVx :
    (ran 0xF255 { regs [(0, 0x11), (1, 0x22), (2, 0x33), (3, 0x44)] with iReg := 0x0300 }).map
      (fun t => ((List.range 4).map fun k => t.mem.read (0x300 + k), t.iReg)) =
      some ([0x11, 0x22, 0x33, 0x00], 0x0300) := by decide

/-- M-11: nothing is written. -/
theorem test_ldMemVx_reserved :
    (ran 0xF155 { regs [(0, 1), (1, 2)] with iReg := 0x01FF }).map
      (fun t => (t.fault, t.mem.read 0x1FF, t.mem.read 0x200)) =
      some (some ⟨.reservedWrite 0x1FF, 0x0200, some 0xF155⟩, 0x00, 0xF1) := by decide

/-- M-13 -/
theorem test_ldVxMem_all :
    (ran 0xFF65 (withBytes 0x0FF0 0xFF0 [1, 2, 3, 4, 5, 6, 7, 8, 9, 10, 11, 12, 13, 14, 15, 16]
      State.reset)).map (fun t => (t.reg 0, t.reg 14, t.reg 15, t.iReg)) =
      some (0x01, 0x0F, 0x10, 0x0FF0) := by decide

/-- M-14: no register changes. -/
theorem test_ldVxMem_above :
    (ran 0xFF65 { State.reset with iReg := 0x0FF1 }).map (fun t => (t.fault, t.v)) =
      some (some ⟨.dataOutOfRange 0x1000, 0x0200, some 0xFF65⟩, State.reset.v) := by decide

/-- M-16 -/
theorem test_ldB :
    (ran 0xF533 { regs [(5, 0x9C)] with iReg := 0x0300 }).map
      (fun t => (List.range 3).map fun k => t.mem.read (0x300 + k)) = some [1, 5, 6] := by decide

/-- M-20: the glyph byte is still there. -/
theorem test_ldB_reserved :
    (ran 0xF033 { regs [(0, 0x7B)] with iReg := 0x0050 }).map (fun t => (t.fault, t.mem.read 0x50)) =
      some (some ⟨.reservedWrite 0x50, 0x0200, some 0xF033⟩, 0xF0) := by decide

/-! Display (vectors DRW). -/

/-- DRW-11 -/
theorem test_cls :
    (ran 0x00E0 { regs [(15, 1)] with fb := frameOf [(0, 1), (31, 63)] }).map
      (fun t => (pixels t.fb [(0, 1), (31, 63)], t.reg 15, t.redraw, t.outputs)) =
      some ([false, false], 1, true, [.redrawRequested]) := by decide

/-- DRW-5: the placement is modulo 64 and 32. -/
theorem test_drw_modulo :
    (ran 0xD125 { regs [(1, 70), (2, 33)] with iReg := 0x0050 }).map
      (fun t => pixels t.fb [(1, 6), (1, 9), (2, 7), (4, 9), (5, 6), (0, 6)]) =
      some [true, true, false, true, true, false] := by decide +kernel

/-- DRW-3: a collision. -/
theorem test_drw_collision :
    (ran 0xD121 { withBytes 0x0300 0x300 [0xC0] State.reset with fb := frameOf [(0, 1), (0, 5)] }).map
      (fun t => (pixels t.fb [(0, 0), (0, 1), (0, 5)], t.reg 15)) =
      some ([true, false, true], 1) := by decide +kernel

/-! Timers and sound (vectors T). -/

/-- T-1 -/
theorem test_ldVxDt :
    (ran 0xF307 { State.reset with dt := 0x1E }).map (fun t => (t.reg 3, t.dt)) = some (0x1E, 0x1E) := by
  decide

/-- T-2 -/
theorem test_ldDtVx : (ran 0xF315 (regs [(3, 0x3C)])).map (·.dt) = some 0x3C := by decide

/-- T-3 -/
theorem test_ldStVx :
    (ran 0xF218 (regs [(2, 5)])).map (fun t => (t.st, t.tone, t.outputs)) =
      some (5, true, [.soundStateChanged]) := by decide

/-- T-4 -/
theorem test_tick_dt : (tick { State.reset with dt := 2 }).dt = 1 ∧
    (tick { State.reset with dt := 2 }).st = 0 := by decide

/-- T-5 -/
theorem test_tick_st : (tick { State.reset with st := 1 }).tone = false ∧
    (tick { State.reset with st := 1 }).dt = 0 := by decide

/-- T-6: one tick, for a batch of no step and of one step. -/
theorem test_cycle_ticks_once :
    [0, 1].map (fun ipc => (wholeCycle ipc default
      { withBytes 0 0x200 [0x12, 0x00] State.reset with dt := 5 }).dt) = [4, 4] := by decide

/-! Input (vectors K). -/

/-- K-1 -/
theorem test_skp_down :
    (ran 0xE29E { regs [(2, 5)] with keys := keysDown [5] }).map (·.pc) = some 0x0204 := by decide

/-- K-3: the low nibble. -/
theorem test_skp_nibble :
    (ran 0xE29E { regs [(2, 0x15)] with keys := keysDown [5] }).map (·.pc) = some 0x0204 := by decide

/-- K-4 -/
theorem test_sknp_up : (ran 0xE2A1 (regs [(2, 5)])).map (·.pc) = some 0x0204 := by decide

/-- K-5 -/
theorem test_sknp_down :
    (ran 0xE2A1 { regs [(2, 5)] with keys := keysDown [5] }).map (·.pc) = some 0x0202 := by decide

/-- K-6 -/
theorem test_ldVxK :
    (ran 0xF30A { State.reset with pc := 0x0210 }).map (fun t => (t.wait, t.pc, t.reg 3, t.outputs)) =
      some (some 3, 0x0210, 0, [.awaitingKeypress 3]) := by decide

/-- A machine that awaits a key into V3 at 0x210, with the keys down at the last sample. -/
def waiting (old : List KeyIx) : State :=
  { withBytes 0 0x210 [0xF3, 0x0A] State.reset with
    pc := 0x0210, wait := some 3, keys := keysDown old }

/-- K-7: the lowest new key completes the wait. -/
theorem test_wait_completes :
    (nextOf (stepWith 2 ⟨keysDown [7, 9], false, false⟩ (waiting []))).map
      (fun t => (t.reg 3, t.wait, t.pc, t.phase)) = some (7, none, 0x0212, .batch 2) := by decide

/-- K-8 and K-9: a held key and a released key are no new press. -/
theorem test_wait_goes_on :
    [[7], []].map (fun new => (nextOf (stepWith 2 ⟨keysDown new, false, false⟩ (waiting [7]))).map
      (fun t => (t.reg 3, t.wait, t.pc))) =
      [some (0, some 3, 0x0210), some (0, some 3, 0x0210)] := by decide

/-- K-10: a Paused cycle takes the snapshot and does not look at the wait. -/
theorem test_wait_paused :
    (nextOf (stepWith 2 ⟨keysDown [4], false, false⟩ { waiting [] with rs := .paused })).map
      (fun t => (t.keys, t.reg 3, t.wait, t.pc)) = some (keysDown [4], 0, some 3, 0x0210) := by decide

/-! Run state (vectors RS). -/

/-- RS-1 -/
theorem test_pause :
    (nextOf (stepWith 2 ⟨keysDown [], false, true⟩ { State.reset with dt := 5 })).map
      (fun t => (t.rs, t.dt, t.phase, t.outputs)) =
      some (.paused, 5, .cycleTop, [.presentRequest]) := by decide

/-- RS-2: the batch starts in the same cycle. -/
theorem test_resume :
    (nextOf (stepWith 2 ⟨keysDown [], false, true⟩ { State.reset with rs := .paused })).map
      (fun t => (t.rs, t.phase, t.outputs)) = some (.running, .batch 2, []) := by decide

/-- RS-3: Quit wins over PauseToggle; the snapshot is taken. -/
theorem test_quit :
    (nextOf (stepWith 2 ⟨keysDown [1], true, true⟩ { State.reset with dt := 5 })).map
      (fun t => (t.rs, t.fault, t.dt, t.keys)) = some (.stopped, none, 5, keysDown [1]) := by decide

/-- RS-4 -/
theorem test_stopped :
    nextOf (stepWith 2 ⟨keysDown [1], true, true⟩ { State.reset with rs := .stopped }) =
      some { State.reset with rs := .stopped } := by rfl

/-! Witnesses: for each claim with hypotheses, a state and operands that meet all of them. -/

/-- The `y` that SHR does not use is in the word. -/
theorem witness_EncodeGivesBackDecoded : decode 0x8126#16 = .ok (.shr 1 2) := by decide

/-- The clause on decoded words of DecoderFollowsOpcodeMap. -/
theorem witness_DecoderFollowsOpcodeMap : decode 0xDFFF#16 = .ok (.drw 15 15 15#4) := by decide

/-- Each clause of UnknownWordsAreTheListed, at words beside the known ones. -/
theorem witness_UnknownWordsAreTheListed :
    [0x00DF#16, 0x0FFF#16, 0x500F#16, 0x8FF8#16, 0x8FFF#16, 0x9001#16, 0xE09D#16, 0xEFA2#16, 0xF006#16, 0xFF66#16].all
      (fun op => decode op == .error (.unknownOpcode op)) = true := by decide

/-- The clauses of FieldsAreTheNamedBits at the highest bit of each field. -/
theorem witness_FieldsAreTheNamedBits :
    (fieldsOf 0x8000#16).family.getLsbD 3 = true ∧ (fieldsOf 0x0800#16).x.val.testBit 3 = true ∧
      (fieldsOf 0x0080#16).y.val.testBit 3 = true ∧ (fieldsOf 0x0008#16).n.getLsbD 3 = true ∧
      (fieldsOf 0x0080#16).nn.getLsbD 7 = true ∧ (fieldsOf 0x0800#16).nnn.getLsbD 11 = true := by
  decide

/-- A state about to run a word, at the last address a word can be fetched from. -/
def atTop (w : Nat) : State := State.withFetchWord { State.reset with pc := 0x0FFE } 16 w

theorem witness_StepRunsDecodedInstruction :
    (atTop 0x6A01).phase = .batch (0 + 1) ∧ (atTop 0x6A01).rs = .running ∧
      (atTop 0x6A01).wait = none ∧ (atTop 0x6A01).fault = none ∧ (atTop 0x6A01).pc.toNat ≤ 4094 ∧
      decode (wordOfBytes ((atTop 0x6A01).mem.read (atTop 0x6A01).pc.toNat)
        ((atTop 0x6A01).mem.read ((atTop 0x6A01).pc.toNat + 1))) = .ok (.ldImm 10 0x01#8) := by decide

/-- One faulting step for each of the six faults: RET with an empty stack, CALL with a full one, an unknown word,
a fetch above 4094, a store above 4095, a store below ENTRY. -/
def faulting : List State := [
  State.withFetchWord State.reset 16 0x0000,
  State.withFetchWord { State.reset with sp := 16 } 16 0x2300,
  State.withFetchWord State.reset 16 0x00EE,
  { State.reset with pc := 0x0FFF, phase := .batch 3 },
  State.withFetchWord { State.reset with iReg := 0x0FFF } 16 0xF155,
  State.withFetchWord { State.reset with iReg := 0x01FF } 16 0xF055]

theorem witness_FaultDiscardsTheStep :
    faulting.all (fun s => s.phase != .cycleTop && s.phase != .batch 0 && s.rs == .running &&
      s.wait.isNone && s.fault.isNone && ((nextOf (step s)).any fun t => t.fault.isSome)) = true := by
  decide

/-- Each clause of FaultsAreRaisedExactlyWhen holds somewhere. -/
theorem witness_FaultsAreRaisedExactlyWhen :
    faulting.map (fun s => (nextOf (step s)).bind fun t => t.fault.map (·.cause)) =
      [some .unknownOpcode, some .stackOverflow, some .stackUnderflow, some (.fetchOutOfRange 0xFFF),
        some (.dataOutOfRange 0x1000), some (.reservedWrite 0x1FF)] := by decide

/-- Both sides of the disjunction of StoppedIsTerminal. -/
theorem witness_StoppedIsTerminal :
    { State.reset with rs := .stopped }.rs = .stopped ∧
      { State.reset with fault := some ⟨.unknownOpcode, 0x0200, some 0⟩ }.fault ≠ none := by decide

/-- Both clauses of CallPushesOrOverflows, at the last free entry and at a full stack. -/
theorem witness_CallPushesOrOverflows :
    { State.reset with sp := 15 }.sp.val < 16 ∧
      (nextOf (exec (.call 0x300#12) { State.reset with sp := 15 })).map (fun t => t.stack[15]) =
        some 0x0202 ∧ { State.reset with sp := 16 }.sp.val = 16 := by decide

/-- Both clauses of RetPopsOrUnderflows, at one entry, at a full stack and at an empty one. -/
theorem witness_RetPopsOrUnderflows :
    0 < { State.reset with sp := 1 }.sp.val ∧ 0 < { State.reset with sp := 16 }.sp.val ∧
      State.reset.sp.val = 0 ∧ State.reset.sp.val < 16 := by decide

/-- KeySkipsAddTwo at the highest key and a register above 15. -/
theorem witness_KeySkipsAddTwo : (15 : KeyIx).val = ((regs [(2, 0xFF)]).reg 2).toNat % 16 := by decide

/-- The clauses of AddWritesSumThenCarry and its like that leave VF out. -/
theorem witness_destination_not_vf : (14 : RegIx) ≠ 15 ∧ (0 : RegIx) ≠ 14 ∧ (0 : RegIx) ≠ 15 := by decide

/-- Both outcomes of the carry at its boundary. -/
theorem witness_AddWritesSumThenCarry :
    ¬(255 + 0 > 255) ∧ 255 + 1 > 255 ∧
      [0, 1].map (fun q => (nextOf (exec (.addReg 1 2) (regs [(1, 255), (2, q)]))).map fun t => t.reg 15) =
        [some 0, some 1] := by decide

/-- The clauses of RandomByteIsMasked: a clear bit of `nn`, `nn = 0` and `nn = 0xFF` (A-33, A-34). -/
theorem witness_RandomByteIsMasked :
    (0x7F#8).getLsbD 7 = false ∧ (randomMasked 0xA7 3 0x7F State.reset).reg 3 = 0x27 ∧
      (randomMasked 0xA7 3 0x00 State.reset).reg 3 = 0x00 ∧
      (randomMasked 0xA7 3 0xFF State.reset).reg 3 = 0xA7 := by decide

/-- The frames: a next state of an instruction that completes, of one that writes a flag, of one that stores, of one that
loads `I`, and of one that faults. -/
theorem witness_frames :
    [Instr.cls, .subReg 1 2, .drw 1 2 3#4, .ldF 1, .ldVxMem 15].all
      (fun i => (nextOf (exec i State.reset)).any fun t => t.fault.isNone) = true ∧
    (nextOf (exec (.ldMemVx 2) { State.reset with iReg := 0x0300 })).any (fun t => t.fault.isNone) = true ∧
    (nextOf (exec (.ldMemVx 2) State.reset)).any (fun t => t.fault.isSome) = true := by decide

/-- OnlyDestinationsAndFlagsChange: a register it keeps, and a flag writer that completes. -/
theorem witness_OnlyDestinationsAndFlagsChange :
    namesDestination (.ldVxMem 3) 4 = false ∧ namesDestination (.shl 1 2) 15 = false ∧
      writesFlag (.shl 1 2) = true ∧
      (nextOf (exec (.shl 1 2) State.reset)).any (fun t => t.pc != State.reset.pc) = true := by decide

/-- AddressRegisterAndMemoryFrame: the byte just above the stored block. -/
theorem witness_AddressRegisterAndMemoryFrame :
    writesI (.ldMemVx 2) = false ∧ storesToMemory (.ldVxMem 2) = false ∧ storesToMemory (.ldMemVx 2) = true ∧
      ¬(0x300 ≤ 0x303 ∧ 0x303 < 0x300 + bytesTouched (.ldMemVx 2)) ∧
      ¬(0x300 ≤ 0x2FF ∧ 0x2FF < 0x300 + bytesTouched (.ldB 2)) := by decide

/-- ControlStateFrame: an instruction none of the rows names. -/
theorem witness_ControlStateFrame :
    (nextOf (exec (.ldReg 1 2) State.reset)).isSome = true ∧ Instr.ldReg 1 2 ≠ .ret ∧
      Instr.ldReg 1 2 ≠ .cls := by decide

/-- PlainInstructionsAdvancePc: it completes, and it faults. -/
theorem witness_PlainInstructionsAdvancePc :
    setsPc (.ldB 0) = false ∧ State.reset.fault = none ∧
      (nextOf (exec (.ldB 0) { State.reset with iReg := 0x0200 })).any (fun t => t.fault.isNone) = true ∧
      (nextOf (exec (.ldB 0) State.reset)).any (fun t => t.fault.isSome) = true := by decide

/-- The clauses of RegistersAreStoredOrFault at their boundaries: the lowest and the highest block, the first block that
leaves memory, the last block below ENTRY. -/
theorem witness_RegistersAreStoredOrFault :
    State.reset.mem.wf ∧
      [(0x0200, 0), (0x0FFF, 0), (0x0FF0, 15), (0x0FFF, 1), (0x0FF1, 15), (0x01FF, 0), (0x01FF, 15)].map
        (fun p => (nextOf (exec (.ldMemVx p.2) { State.reset with iReg := p.1 })).bind fun t =>
          t.fault.map fun r => r.cause) =
        [none, none, none, some (.dataOutOfRange 0x1000), some (.dataOutOfRange 0x1000),
          some (.reservedWrite 0x1FF), some (.reservedWrite 0x1FF)] := by decide

/-- The clauses of RegistersAreLoadedOrFault at their boundaries, an `I` above 4095 among them. -/
theorem witness_RegistersAreLoadedOrFault :
    [(0x0000, 15), (0x0FFF, 0), (0x0FFF, 1), (0x1000, 2), (0xFFFF, 0)].map
      (fun p => (nextOf (exec (.ldVxMem p.2) { State.reset with iReg := p.1 })).bind fun t =>
        t.fault.map fun r => r.cause) =
      [none, none, some (.dataOutOfRange 0x1000), some (.dataOutOfRange 0x1000),
        some (.dataOutOfRange 0xFFFF)] := by decide

/-- The clauses of DecimalDigitsAreStoredOrFault at their boundaries. -/
theorem witness_DecimalDigitsAreStoredOrFault :
    State.reset.mem.wf ∧
      [0x0200, 0x0FFD, 0x0FFE, 0x01FF].map
        (fun a => (nextOf (exec (.ldB 0) { State.reset with iReg := a })).bind fun t =>
          t.fault.map fun r => r.cause) =
        [none, none, some (.dataOutOfRange 0x1000), some (.reservedWrite 0x1FF)] := by decide

/-- StoredWordIsFetchedNext at the first address and with the least register. -/
theorem witness_StoredWordIsFetchedNext :
    { State.reset with iReg := 0x0202 }.mem.wf ∧ 1 ≤ (1 : RegIx).val ∧
      512 ≤ { State.reset with iReg := 0x0202 }.iReg.toNat ∧
      { State.reset with iReg := 0x0202 }.iReg.toNat + (1 : RegIx).val ≤ 4095 ∧
      { State.reset with iReg := 0x0202 }.iReg.toNat =
        { State.reset with iReg := 0x0202 }.pc.toNat + 2 := by decide

/-- The clauses of DrwDrawsOrFaults at their boundaries: no row at an `I` outside memory, the last byte of memory, the
first byte outside it (DRW-7, DRW-9, DRW-8). -/
theorem witness_DrwDrawsOrFaults :
    [(0x1000, 0), (0x0FFE, 2), (0x0FFE, 3), (0x0FFF, 2)].map
      (fun p => (nextOf (exec (.drw 0 1 p.2) { State.reset with iReg := p.1 })).bind fun t =>
        t.fault.map fun r => r.cause) =
      [none, none, some (.dataOutOfRange 0x1000), some (.dataOutOfRange 0x1000)] := by decide

/-- DrawingTwiceRestores: DRW-3b, where the first draw turns nothing on. -/
theorem witness_DrawingTwiceRestores :
    (1 : RegIx) ≠ 15 ∧ (2 : RegIx) ≠ 15 ∧ 0x300 + (1#4).toNat - 1 ≤ 4095 ∧
      ((nextOf (exec (.drw 1 2 1#4) { withBytes 0x0300 0x300 [0x40] State.reset with
        fb := frameOf [(0, 1), (0, 5)] })).bind fun t => nextOf (exec (.drw 1 2 1#4) t)).map
        (fun t => (pixels t.fb [(0, 0), (0, 1), (0, 5)], t.reg 15)) =
        some ([false, true, true], 0) := by decide +kernel

/-- Both ends of a cycle: the budget used up, and a key awaited. -/
theorem witness_CycleEndTicksOnce :
    { State.reset with phase := .batch 0 }.phase = .batch 0 ∧ State.reset.rs = .running ∧
      State.reset.fault = none ∧ (waiting []).wait ≠ none ∧
      (nextOf (step { waiting [] with phase := .batch 7, dt := 3 })).map (fun t => (t.dt, t.phase)) =
        some (2, .cycleTop) := by decide

/-- Both clauses of InputSampleAppliesOneSignal. -/
theorem witness_InputSampleAppliesOneSignal :
    State.reset.rs ≠ .stopped ∧ { State.reset with rs := .paused }.rs ≠ .stopped ∧
      { State.reset with rs := .stopped }.rs = .stopped := by decide

/-- CycleTopSamplesThenRuns: each of its three outcomes. -/
theorem witness_CycleTopSamplesThenRuns :
    State.reset.phase = .cycleTop ∧ State.reset.rs ≠ .stopped ∧ State.reset.fault = none ∧
      State.reset.wait = none ∧
      [HostInput.mk (keysDown []) true false, ⟨keysDown [], false, true⟩, ⟨keysDown [], false, false⟩].map
        (fun inp => (nextOf (stepWith 0 inp State.reset)).map (·.rs)) =
        [some .stopped, some .paused, some .running] := by decide

/-- KeyWaitStartsHeld: the state before, in a batch. -/
theorem witness_KeyWaitStartsHeld :
    (nextOf (exec (.ldVxK 3) { State.reset with phase := .batch 0 })).isSome = true ∧
      { State.reset with phase := .batch 0 }.phase = .batch 0 ∧ State.reset.rs = .running ∧
      State.reset.fault = none := by decide

/-- KeyWaitCompletesOnNewPress: a wait at the top of a cycle, with the lowest and the highest key newly pressed, with
none, and in a Paused cycle. -/
theorem witness_KeyWaitCompletesOnNewPress :
    (waiting []).phase = .cycleTop ∧ (waiting []).rs ≠ .stopped ∧ (waiting []).fault = none ∧
      (waiting []).wait = some 3 ∧ (waiting []).keys[15] = false ∧ (keysDown [15])[15] = true ∧
      [[0, 15], [15], []].map
        (fun l => (nextOf (stepWith 2 ⟨keysDown l, false, false⟩ (waiting []))).map
          (fun t => (t.rs, t.reg 3, t.wait))) =
        [some (.running, 0, none), some (.running, 15, none), some (.running, 0, some 3)] ∧
      (nextOf (stepWith 2 ⟨keysDown [0], false, true⟩ (waiting []))).map (fun t => (t.rs, t.wait)) =
        some (.paused, some 3) := by decide

/-- RunStateFollowsTheTable: a machine that is stopped, one whose run state changes by a fault, by a signal, and one that
stays Paused. -/
theorem witness_RunStateFollowsTheTable :
    (nextOf (stepWith 1 default { State.reset with rs := .stopped })).map (·.rs) = some .stopped ∧
      faulting.all (fun s => (nextOf (stepWith 1 default s)).any fun t => t.rs != s.rs) = true ∧
      (nextOf (stepWith 1 ⟨keysDown [], false, true⟩ State.reset)).map (·.rs) = some .paused ∧
      (nextOf (stepWith 1 ⟨keysDown [4], false, false⟩ { State.reset with rs := .paused })).map (·.rs) =
        some .paused := by decide

/-- Both clauses of ProgramLoadCopiesOrFails at the largest program. -/
theorem witness_ProgramLoadCopiesOrFails :
    (List.replicate 3584 (0x12#8)).length ≤ 3584 ∧ 3584 < (List.replicate 3585 (0x12#8)).length := by
  simp only [List.length_replicate]; omega

/-- A program that loads. -/
theorem witness_ResetAndLoadMeetInvariant : (load [0x12, 0x00]).isSome = true := by decide

/-- A canonical memory and a step that stores to it. -/
theorem witness_MemoryStaysCanonical :
    (State.withFetchWord { State.reset with iReg := 0x0300 } 16 0xF055).mem.wf ∧
      (ran 0xF055 { State.reset with iReg := 0x0300 }).isSome = true := by decide

theorem witness_ReservedBytesNeverChange :
    (ran 0xF055 { State.reset with iReg := 0x01FF }).isSome = true ∧ 0x1FF < 0x200 := by decide

/-- The reset state meets the invariant. -/
theorem witness_StepKeepsInvariant : State.reset.Inv where
  memory := by decide
  fault := fun h => absurd rfl h
  paused := fun h => by cases h
  redraw := fun _ => rfl
  wait := fun _ h => by cases h
  stack := fun _ h => absurd h (Nat.not_lt_zero _)
  pc := by unfold State.pcBounded; decide
  reserved := fun _ _ => rfl

/-- A state of a run that meets the clauses whose premises reset does not: a key is awaited, a return address is on the
stack. -/
theorem witness_StepKeepsInvariant_clauses :
    (waiting []).wait = some 3 ∧ (waiting []).pc.toNat ≤ 4094 ∧
      (waiting []).wordAt (waiting []).pc.toNat = encode (.ldVxK 3) ∧
      (ran 0x2300 State.reset).any (fun t => decide (0 < t.sp.val ∧ (t.stack[0]).toNat ≤ 4096)) = true := by
  decide

theorem witness_StepsMakeTheWholeCycle : State.reset.phase = .cycleTop ∧ State.reset.fault = none := by
  decide

theorem witness_PlacedWordRunsNext :
    State.reset.mem.wf ∧ State.reset.pc.toNat ≤ 4094 ∧
      decodeTableWord 16 (0x6A2B#16).toNat = some (.ldImm 10 0x2B#8) := by decide

end Sys2Proof.Tests
end

section
/-! PROOF. What an instruction and the decoder can answer, said once for all 34 instructions. -/

namespace Sys2Proof

/-- A word of a family with format NNN, from its fields (30_encoding.md R71, R72). -/
theorem wordNNN_fieldsOf {op : Word} {f : BitVec 4} (hf : (fieldsOf op).family = f) :
    wordNNN f (fieldsOf op).nnn = op := by
  apply BitVec.eq_of_toNat_eq
  rw [wordNNN_toNat, ← hf]
  have := fieldsOf_toNat op
  omega

/-- A word of a family with format XNN, from its fields (R71, R72). -/
theorem wordXNN_fieldsOf {op : Word} {f : BitVec 4} (hf : (fieldsOf op).family = f) :
    wordXNN f (fieldsOf op).x (fieldsOf op).nn = op := by
  apply BitVec.eq_of_toNat_eq
  rw [wordXNN_toNat, ← hf]
  have := fieldsOf_toNat op
  omega

/-- A word of a family with format XYN, from its fields (R71, R72). -/
theorem wordXYN_fieldsOf {op : Word} {f n : BitVec 4} (hf : (fieldsOf op).family = f)
    (hn : (fieldsOf op).n = n) : wordXYN f (fieldsOf op).x (fieldsOf op).y n = op := by
  apply BitVec.eq_of_toNat_eq
  rw [wordXYN_toNat, ← hf, ← hn]
  have := fieldsOf_toNat op
  omega

/-- A decoded word is the word of its instruction (R70, R75). -/
theorem encode_of_decode {op : Word} {i : Instr} (h : decode op = .ok i) : encode i = op := by
  obtain ⟨-, hw, rfl⟩ | ⟨-, hw, rfl⟩ | ⟨hf, rfl⟩ | ⟨hf, rfl⟩ | ⟨hf, rfl⟩ | ⟨hf, rfl⟩ | ⟨hf, hn, rfl⟩ |
    ⟨hf, rfl⟩ | ⟨hf, rfl⟩ | ⟨hf, hi⟩ | ⟨hf, hn, rfl⟩ | ⟨hf, rfl⟩ | ⟨hf, rfl⟩ | ⟨hf, rfl⟩ | ⟨hf, rfl⟩ |
    ⟨hf, hi⟩ | ⟨hf, hi⟩ := select_cases (fieldsOf op) i h
  exacts [hw.symm, hw.symm, wordNNN_fieldsOf hf, wordNNN_fieldsOf hf, wordXNN_fieldsOf hf,
    wordXNN_fieldsOf hf, wordXYN_fieldsOf hf hn, wordXNN_fieldsOf hf, wordXNN_fieldsOf hf,
    (selectArith_ok _ _ hi).trans (wordXYN_fieldsOf hf rfl), wordXYN_fieldsOf hf hn,
    wordNNN_fieldsOf hf, wordNNN_fieldsOf hf, wordXNN_fieldsOf hf, wordXYN_fieldsOf hf rfl,
    (selectKey_ok _ _ hi).trans (wordXNN_fieldsOf hf), (selectMisc_ok _ _ hi).trans (wordXNN_fieldsOf hf)]

end Sys2Proof

namespace Sys2Proof.Machine

/-- Every register after an instruction that may skip (40_control_flow.md R104 to R107). -/
@[simp] theorem reg_skipIf (s : State) (c : Bool) (j : RegIx) : (s.skipIf c).reg j = s.reg j := by
  cases c <;> rfl

section

variable (s : State) (c : Bool)

@[simp] theorem skipIf_iReg : (s.skipIf c).iReg = s.iReg := by cases c <;> rfl
@[simp] theorem skipIf_mem : (s.skipIf c).mem = s.mem := by cases c <;> rfl
@[simp] theorem skipIf_stack : (s.skipIf c).stack = s.stack := by cases c <;> rfl
@[simp] theorem skipIf_sp : (s.skipIf c).sp = s.sp := by cases c <;> rfl
@[simp] theorem skipIf_dt : (s.skipIf c).dt = s.dt := by cases c <;> rfl
@[simp] theorem skipIf_st : (s.skipIf c).st = s.st := by cases c <;> rfl
@[simp] theorem skipIf_keys : (s.skipIf c).keys = s.keys := by cases c <;> rfl
@[simp] theorem skipIf_fb : (s.skipIf c).fb = s.fb := by cases c <;> rfl
@[simp] theorem skipIf_rs : (s.skipIf c).rs = s.rs := by cases c <;> rfl
@[simp] theorem skipIf_wait : (s.skipIf c).wait = s.wait := by cases c <;> rfl
@[simp] theorem skipIf_fault : (s.skipIf c).fault = s.fault := by cases c <;> rfl
@[simp] theorem skipIf_redraw : (s.skipIf c).redraw = s.redraw := by cases c <;> rfl
@[simp] theorem skipIf_phase : (s.skipIf c).phase = s.phase := by cases c <;> rfl
@[simp] theorem skipIf_samples : (s.skipIf c).samples = s.samples := by cases c <;> rfl
@[simp] theorem skipIf_draws : (s.skipIf c).draws = s.draws := by cases c <;> rfl

end

/-- Instruction `i` completes from `s` in `t`. The six that can fault have their guard and their effect
written out; each other one completes always, and its effect is `exec`'s own. -/
def Completes (i : Instr) (s t : State) : Prop :=
  match i with
  | .ret => ∃ h : 0 < s.sp.val,
      t = { s with sp := ⟨s.sp.val - 1, by omega⟩, pc := s.stack[s.sp.val - 1] }
  | .call nnn => ∃ h : s.sp.val < 16,
      t = { s with
        stack := s.stack.set s.sp.val (s.pc + 2)
        sp := ⟨s.sp.val + 1, by omega⟩
        pc := addressOperand nnn }
  | .drw x y n => loadFault s.base n.toNat = none ∧
      t = (State.requestRedraw (State.setReg { s with fb := (s.drawn x y n).1 }
        flagReg (flagByte (s.drawn x y n).2))).advance
  | .ldB x => (512 ≤ s.base ∧ s.base + 3 ≤ 4096) ∧
      t = (s.setMem (s.mem.writeBytes s.base (decimalDigits (s.reg x)))).advance
  | .ldMemVx x => (512 ≤ s.base ∧ s.base + (x.val + 1) ≤ 4096) ∧
      t = (s.setMem (s.mem.writeBytes s.base (s.regsUpTo x))).advance
  | .ldVxMem x => loadFault s.base (x.val + 1) = none ∧ t = (s.loadRegsUpTo x s.base).advance
  | _ => exec i s = .next t

/-- The end of an instruction, read backwards. -/
theorem complete_next {i : Instr} {s t : State} {r : Except Fault State} (h : complete i s r = .next t) :
    (∃ f, t = takeFault f (some (encode i)) s) ∨ r = .ok t := by
  cases r with
  | ok u => cases h; exact .inr rfl
  | error f => cases h; exact .inl ⟨f, rfl⟩

/-- A block store of at least one byte that answers a state, read backwards (20_memory.md R55, R56). -/
theorem storeBlock_ok {base : Nat} {bs : List Byte} {s t : State} (hlen : 0 < bs.length)
    (h : storeBlock base bs s = .ok t) :
    512 ≤ base ∧ base + bs.length ≤ 4096 ∧ t = s.setMem (s.mem.writeBytes base bs) := by
  obtain ⟨hlow, hhigh, he⟩ | ⟨_, he⟩ | ⟨_, _, he⟩ := storeBlock_cases base bs s hlen <;>
    rw [he] at h <;> cases h
  exact ⟨hlow, hhigh, rfl⟩

/-- Everything `exec` can answer (40_control_flow.md R100): the instruction takes a fault in the state before it, or
completes. -/
theorem exec_next {i : Instr} {s t : State} (h : exec i s = .next t) :
    (∃ f, t = takeFault f (some (encode i)) s) ∨ Completes i s t := by
  cases i with
  | ret =>
    refine (complete_next h).imp_right fun hr => ?_
    obtain ⟨hsp, he⟩ | ⟨_, he⟩ := pop_cases s <;> rw [he] at hr <;> cases hr
    exact ⟨hsp, rfl⟩
  | call nnn =>
    refine (complete_next h).imp_right fun hr => ?_
    obtain ⟨hsp, he⟩ | ⟨_, he⟩ := push_cases (s.pc + 2) s <;> rw [he] at hr <;> cases hr
    exact ⟨hsp, rfl⟩
  | drw x y n =>
    refine (complete_next h).imp_right fun hr => ?_
    cases hl : loadFault s.base n.toNat <;> rw [hl] at hr <;> cases hr
    exact ⟨hl, rfl⟩
  | ldB x =>
    refine (complete_next h).imp_right fun hr => ?_
    cases hb : storeBlock s.base (decimalDigits (s.reg x)) s <;> rw [hb] at hr <;> cases hr
    obtain ⟨hlow, hhigh, rfl⟩ := storeBlock_ok (by simp) hb
    exact ⟨⟨hlow, hhigh⟩, rfl⟩
  | ldMemVx x =>
    refine (complete_next h).imp_right fun hr => ?_
    cases hb : storeBlock s.base (s.regsUpTo x) s <;> rw [hb] at hr <;> cases hr
    obtain ⟨hlow, hhigh, rfl⟩ := storeBlock_ok (by simp) hb
    exact ⟨⟨hlow, by simpa using hhigh⟩, rfl⟩
  | ldVxMem x =>
    refine (complete_next h).imp_right fun hr => ?_
    cases hl : loadFault s.base (x.val + 1) <;> rw [hl] at hr <;> cases hr
    exact ⟨hl, rfl⟩
  | _ => exact .inr h

/-- Memory after an instruction (20_memory.md R50): as before, or, for the two that store, with the block it touches
replaced, all of it inside the writable addresses. -/
theorem exec_mem {i : Instr} {s t : State} (h : exec i s = .next t) :
    t.mem = s.mem ∨
    (storesToMemory i = true ∧ ∃ bs : List Byte, bs.length = bytesTouched i ∧
      512 ≤ s.base ∧ s.base + bs.length ≤ 4096 ∧ t.mem = s.mem.writeBytes s.base bs) := by
  obtain ⟨f, rfl⟩ | hc := exec_next h
  · exact .inl rfl
  · cases i with
    | ldB x =>
      obtain ⟨⟨hlow, hhigh⟩, rfl⟩ := hc
      exact .inr ⟨rfl, decimalDigits (s.reg x), rfl, hlow, hhigh, rfl⟩
    | ldMemVx x =>
      obtain ⟨⟨hlow, hhigh⟩, rfl⟩ := hc
      exact .inr ⟨rfl, s.regsUpTo x, by simp [bytesTouched], hlow, by simpa using hhigh, rfl⟩
    | ret | call | drw | ldVxMem => obtain ⟨_, rfl⟩ := hc; exact .inl rfl
    | rnd => cases hc; exact .inl rfl
    | _ => cases hc; simp

end Sys2Proof.Machine
end

section
/-! PROOF. The frames of an instruction's step (10_state.md). -/

namespace Sys2Proof.Machine

/-- `PC` after an instruction that sets none of its own (10_state.md R23, first and last row). -/
theorem exec_pc_plain {i : Instr} {s t : State} (hi : setsPc i = false) (h : exec i s = .next t) :
    (t.pc = s.pc + 2 ∧ t.fault = s.fault) ∨ (t.pc = s.pc ∧ t.fault ≠ none) := by
  obtain ⟨f, rfl⟩ | hc := exec_next h
  · exact .inr ⟨rfl, by simp⟩
  · left
    cases i with
    | ret | call | jp | jpV0 | seImm | sneImm | seReg | sneReg | skp | sknp | ldVxK => cases hi
    | drw | ldVxMem | ldB | ldMemVx => obtain ⟨_, rfl⟩ := hc; exact ⟨rfl, rfl⟩
    | _ => cases hc; exact ⟨rfl, rfl⟩

/-- Settles O25: plain instructions leave `PC` at `a + 2`, or at `a` when they fault. -/
theorem plainInstructionsAdvancePc : Obligations.PlainInstructionsAdvancePc := by
  intro i s t hi hs h
  obtain ⟨hpc, hf⟩ | ⟨hpc, hf⟩ := exec_pc_plain hi h
  · exact ⟨fun _ => hpc, fun hne => absurd (hf.trans hs) hne⟩
  · exact ⟨fun he => absurd he hf, fun _ => hpc⟩

/-- `I` after an instruction that does not write it (R22). -/
theorem exec_iReg {i : Instr} {s t : State} (hi : writesI i = false) (h : exec i s = .next t) :
    t.iReg = s.iReg := by
  obtain ⟨f, rfl⟩ | hc := exec_next h
  · rfl
  · cases i with
    | ldI | addI | ldF => cases hi
    | ret | call | drw | ldVxMem | ldB | ldMemVx => obtain ⟨_, rfl⟩ := hc; rfl
    | rnd => cases hc; rfl
    | _ => cases hc; simp

/-- Settles O23: the frame of `I`, and of memory outside the block an instruction stores. -/
theorem addressRegisterAndMemoryFrame : Obligations.AddressRegisterAndMemoryFrame := by
  intro i s t h
  refine ⟨fun hi => exec_iReg hi h, ?_⟩
  obtain hm | ⟨hst, bs, hlen, _, _, hm⟩ := exec_mem h
  · simp [hm]
  · refine ⟨fun hi => absurd (hi.symm.trans hst) nofun, fun _ a ha => ?_⟩
    rw [hm, read_writeBytes_outside _ _ _ _ (hlen ▸ ha)]

/-- A flag byte is 0 or 1 (R21). -/
theorem flagByte_zero_or_one (c : Bool) : flagByte c = 0 ∨ flagByte c = 1 := by
  cases c <;> simp [flagByte]

/-- Settles O22: registers change only as named destinations or as the flag of a flag writer. -/
theorem onlyDestinationsAndFlagsChange : Obligations.OnlyDestinationsAndFlagsChange := by
  intro i s t h
  obtain ⟨f, rfl⟩ | hc := exec_next h
  · exact ⟨fun j _ _ => rfl, fun _ hpc => absurd rfl hpc⟩
  · cases i with
    | drw =>
      obtain ⟨_, rfl⟩ := hc
      refine ⟨fun j _ hj => reg_setReg_ne _ _ _ _ fun e => hj ⟨rfl, e⟩, fun _ _ => ?_⟩
      rw [reg_advance, reg_requestRedraw, reg_setReg, if_pos (show 15 = flagReg from rfl)]
      exact flagByte_zero_or_one _
    | addReg | subReg | shr | subnReg | shl =>
      cases hc
      refine ⟨fun j hx hj => ?_, fun _ _ => ?_⟩
      · have hne : j ≠ 15 := fun e => hj ⟨rfl, e⟩
        rw [reg_writeRegFlag, if_neg hne, if_neg (beq_eq_false_iff_ne.mp hx)]
      · rw [reg_writeRegFlag, if_pos rfl]
        exact flagByte_zero_or_one _
    | ldImm | addImm | ldReg | orReg | andReg | xorReg | rnd | ldVxDt =>
      cases hc
      exact ⟨fun j hx _ => reg_setReg_ne _ _ _ _ (beq_eq_false_iff_ne.mp hx), nofun⟩
    | ldVxMem x =>
      obtain ⟨_, rfl⟩ := hc
      refine ⟨fun j hx _ => ?_, nofun⟩
      rw [reg_advance, reg_loadRegsUpTo, if_neg (of_decide_eq_false hx)]
    | ret | call | ldB | ldMemVx => obtain ⟨_, rfl⟩ := hc; exact ⟨fun _ _ _ => rfl, nofun⟩
    | seImm | sneImm | seReg | sneReg | skp | sknp =>
      cases hc; exact ⟨fun _ _ _ => reg_skipIf _ _ _, nofun⟩
    | _ => cases hc; exact ⟨fun _ _ _ => rfl, nofun⟩

/-- Settles O24: what an instruction may change of the control state, field by field. -/
theorem controlStateFrame : Obligations.ControlStateFrame := by
  intro i s t h
  obtain ⟨f, rfl⟩ | hc := exec_next h
  · simp
  · cases i with
    | ret | call | drw | ldVxMem | ldB | ldMemVx => obtain ⟨_, rfl⟩ := hc; simp
    | rnd => cases hc; simp [randomMasked]
    | _ => cases hc; simp

/-- Settles O41: the reset values, the glyph bytes by evaluating the 80 reads. -/
theorem resetLeavesTheListedValues : Obligations.ResetLeavesTheListedValues := by
  refine ⟨fun x => ?_, rfl, rfl, fun k => ?_, rfl, rfl, rfl, fun k => ?_, fun r c => ?_, rfl, rfl, rfl, rfl,
    fun a ha => ?_, by decide⟩
  · simp [State.reg, State.reset]
  · simp [State.reset]
  · simp [State.reset]
  · simp [pixel, State.reset]
  · have hout : ¬(fontBase ≤ a ∧ a < fontBase + glyphTable.length) := by
      rw [show glyphTable.length = 80 from rfl, show fontBase = 0x050 from rfl]
      omega
    exact if_neg hout

end Sys2Proof.Machine

end

section
/-! PROOF. Every event of the scheduling cycle keeps the invariant (60_exceptions.md R179). -/

namespace Sys2Proof.Machine

/-- A machine that has not stopped has no fault record (10_state.md R31). -/
theorem not_halted {s : State} (h : s.halted = false) : s.rs ≠ .stopped ∧ s.fault = none := by
  simpa [State.halted] using h

/-- What an instruction step needs (40_control_flow.md R100). -/
theorem enabled_iff {s : State} :
    s.enabled = true ↔ s.rs = .running ∧ s.wait = none ∧ s.fault = none := by
  simp [State.enabled, and_assoc]

/-- The fetch increment does not wrap below 65534. -/
theorem toNat_add_two {w : Word} (h : w.toNat < 65534) : (w + 2).toNat = w.toNat + 2 := by
  bv_omega

/-- An address operand is at most 4095 (30_encoding.md R73). -/
theorem toNat_addressOperand_le (nnn : BitVec 12) : (addressOperand nnn).toNat ≤ 4095 := by
  have := nnn.isLt
  simp [addressOperand]; omega

/-- A byte as a word is at most 255. -/
theorem toNat_wordOfByte_le (b : Byte) : (wordOfByte b).toNat ≤ 255 := by
  have := b.isLt
  simp [wordOfByte]; omega

/-- Every valid stack entry stays at most 4096: CALL pushes `a + 2`, and `a` is at most 4094 (R101, R103). -/
theorem exec_stackBounded {i : Instr} {s t : State} (hs : s.stackBounded) (hpc : s.pc.toNat ≤ 4094)
    (h : exec i s = .next t) : t.stackBounded := by
  obtain ⟨f, rfl⟩ | hc := exec_next h
  · exact hs
  · cases i with
    | ret =>
      obtain ⟨_, rfl⟩ := hc
      exact fun k hk => hs k (by simp at hk; omega)
    | call nnn =>
      obtain ⟨hsp, rfl⟩ := hc
      intro k hk
      simp only [Vector.getElem_set]
      split_ifs with hk'
      · rw [toNat_add_two (by omega)]; omega
      · exact hs k (by simp at hk; omega)
    | drw | ldVxMem | ldB | ldMemVx => obtain ⟨_, rfl⟩ := hc; exact hs
    | rnd => cases hc; exact hs
    | _ => cases hc; simpa [State.stackBounded] using hs

/-- `PC` after an instruction fetched inside memory is at most 4350: a jump reaches 4095, JP V0 adds at most 255
(10_state.md R23, R102, R108). -/
theorem exec_pcBounded {i : Instr} {s t : State} (hs : s.stackBounded) (hpc : s.pc.toNat ≤ 4094)
    (h : exec i s = .next t) : t.pcBounded := by
  have hnext : (s.pc + 2).toNat = s.pc.toNat + 2 := toNat_add_two (by omega)
  have hskip : (s.pc + 2 + 2).toNat = s.pc.toNat + 4 := by rw [toNat_add_two (by omega), hnext]
  unfold State.pcBounded
  cases hi : setsPc i with
  | false => obtain ⟨he, _⟩ | ⟨he, _⟩ := exec_pc_plain hi h <;> rw [he] <;> omega
  | true =>
    obtain ⟨f, rfl⟩ | hc := exec_next h
    · rw [takeFault_pc]; omega
    · cases i with
      | ret =>
        obtain ⟨hsp, rfl⟩ := hc
        exact (hs ⟨s.sp.val - 1, by omega⟩ (by simp; omega)).trans (by omega)
      | jp nnn => cases hc; exact (toNat_addressOperand_le nnn).trans (by omega)
      | call nnn => obtain ⟨_, rfl⟩ := hc; exact (toNat_addressOperand_le nnn).trans (by omega)
      | jpV0 nnn =>
        cases hc
        have hn := toNat_addressOperand_le nnn
        have hb := toNat_wordOfByte_le (s.reg 0)
        rw [setPc_pc, BitVec.toNat_add_of_lt (by omega)]
        omega
      | seImm | sneImm | seReg | sneReg | skp | sknp =>
        cases hc
        rw [skipIf_eq, setPc_pc]
        split_ifs <;> omega
      | ldVxK x => cases hc; exact hpc.trans (by omega)
      | _ => cases hi

/-- Memory stays canonical: a store lies inside it. -/
theorem exec_mem_wf {i : Instr} {s t : State} (hs : s.mem.wf) (h : exec i s = .next t) : t.mem.wf := by
  obtain hm | ⟨_, bs, _, _, hhigh, hm⟩ := exec_mem h <;> rw [hm]
  · exact hs
  · exact writeBytes_wf bs _ _ hs hhigh

/-- No instruction changes a byte below ENTRY (20_memory.md R56). -/
theorem exec_read_reserved {i : Instr} {s t : State} (h : exec i s = .next t) {a : Nat} (ha : a < entry) :
    t.mem.read a = s.mem.read a := by
  obtain hm | ⟨_, bs, _, hlow, _, hm⟩ := exec_mem h <;> rw [hm]
  have : a < 512 := ha
  exact read_writeBytes_outside _ _ _ _ (by omega)

/-- A key wait begins at its own LD Vx,K, which stays in memory (45_input.md R162). -/
theorem exec_waitHeld {i : Instr} {s t : State} (hw : s.wait = none) (hpc : s.pc.toNat ≤ 4094)
    (hd : decode (s.wordAt s.pc.toNat) = .ok i) (h : exec i s = .next t) : t.waitHeld := by
  intro r hr
  by_cases hi : ∃ x, i = .ldVxK x
  · obtain ⟨x, rfl⟩ := hi
    cases h
    cases hr
    exact ⟨hpc, (encode_of_decode hd).symm⟩
  · obtain ⟨-, -, -, -, -, -, hwait, -⟩ := controlStateFrame i s t h
    rw [hwait fun x hx => hi ⟨x, hx⟩, hw] at hr
    cases hr

/-- Taking a fault keeps the invariant. -/
theorem takeFault_inv {s : State} (hs : s.Inv) (f : Fault) (op : Option Word) : (takeFault f op s).Inv :=
  { hs with fault := fun _ => rfl, paused := nofun }

/-- The start of an instruction step of a running machine keeps the invariant. -/
theorem beginStep_inv {s : State} (hs : s.Inv) (hrs : s.rs = .running) (n : Nat) : (beginStep n s).Inv :=
  { hs with paused := fun hp => (nomatch hrs.symm.trans hp), redraw := nofun }

/-- A decoded instruction, run inside a batch, keeps the invariant. -/
theorem exec_inv {i : Instr} {s t : State} (hs : s.Inv) (hen : s.enabled = true) (hp : s.phase ≠ .cycleTop)
    (hpc : s.pc.toNat ≤ 4094) (hd : decode (s.wordAt s.pc.toNat) = .ok i) (h : exec i s = .next t) :
    t.Inv := by
  obtain ⟨hrs, hw, hf⟩ := enabled_iff.mp hen
  obtain ⟨-, hphase, -, hrun, -⟩ := controlStateFrame i s t h
  have hstop : (t.rs = .running ∧ t.fault = none) ∨ t.rs = .stopped :=
    hrun.imp (fun ⟨hr, hft⟩ => ⟨hr.trans hrs, hft.trans hf⟩) fun ⟨hr, _⟩ => hr
  exact {
    memory := exec_mem_wf hs.memory h
    fault := fun hne => hstop.resolve_left fun ⟨_, hft⟩ => hne hft
    paused := fun hpz => by simp [hpz] at hstop
    redraw := fun hpt => absurd (hphase.symm.trans hpt) hp
    wait := exec_waitHeld hw hpc hd h
    stack := exec_stackBounded hs.stack hpc h
    pc := exec_pcBounded hs.stack hpc h
    reserved := fun a ha => (exec_read_reserved h ha).trans (hs.reserved a ha) }

/-- An instruction step keeps the invariant (R100). -/
theorem fetchDecodeExecute_inv {s t : State} (hs : s.Inv) (hen : s.enabled = true) (hp : s.phase ≠ .cycleTop)
    (h : fetchDecodeExecute s = .next t) : t.Inv := by
  obtain ⟨_, he⟩ | ⟨_, _, he⟩ | ⟨hpc, i, hd, he⟩ := fetchDecodeExecute_cases s <;> rw [he] at h
  · cases h; exact takeFault_inv hs _ _
  · cases h; exact takeFault_inv hs _ _
  · exact exec_inv hs hen hp hpc hd h

/-- The top of a cycle keeps the invariant: a key wait that completes moves `PC` on by 2 and ends (R163). -/
theorem topOfCycle_inv {s : State} (hs : s.Inv) (hf : s.fault = none) (hp : s.phase = .cycleTop)
    (ipc : Nat) (inp : HostInput) : (topOfCycle ipc inp s).Inv := by
  obtain ⟨hrs, he⟩ | ⟨hrs, he⟩ | ⟨hrs, he⟩ := topOfCycle_cases ipc inp s <;> rw [he]
  · exact { hs with fault := fun _ => hrs, paused := fun _ => hp }
  · exact { hs with fault := fun hne => absurd hf hne, paused := fun _ => hp }
  · obtain ⟨_, hk⟩ | ⟨r, k, hw, _, hk⟩ :=
      completeKeyWait_cases s.keys (inputSample inp { s with outputs := [] }) <;> rw [hk]
    · exact { hs with
        fault := fun hne => absurd hf hne
        paused := fun hpz => (nomatch hrs.symm.trans hpz)
        redraw := nofun }
    · obtain ⟨hpc, _⟩ := hs.wait r hw
      have hnext : (s.pc + 2).toNat = s.pc.toNat + 2 := toNat_add_two (by omega)
      exact { hs with
        fault := fun hne => absurd hf hne
        paused := fun hpz => (nomatch hrs.symm.trans hpz)
        redraw := nofun
        wait := nofun
        pc := hnext.trans_le (by omega) }

/-- The end of a cycle keeps the invariant: the machine is Running, and the redraw latch is served (R179 step 8). -/
theorem endOfCycle_inv {s : State} (hs : s.Inv) (hrs : s.rs = .running) : (endOfCycle s).Inv := by
  rw [endOfCycle_running s hrs]
  exact { hs with paused := fun _ => rfl, redraw := fun _ => rfl }

/-- A machine in a batch that has not stopped is Running (R179). -/
theorem running_of_batch {s : State} {n : Nat} (hs : s.Inv) (hrs : s.rs ≠ .stopped)
    (hp : s.phase = .batch n) : s.rs = .running := by
  cases h : s.rs with
  | running => rfl
  | paused => exact nomatch hp.symm.trans (hs.paused h)
  | stopped => exact absurd h hrs

/-- Settles O46: by the four kinds of event of R179. -/
theorem stepKeepsInvariant : Obligations.StepKeepsInvariant := by
  intro s t hs h
  obtain ⟨_, he⟩ | ⟨hh, hp, he⟩ | ⟨n, _, _, hen, he⟩ | ⟨n, hh, hp, _, he⟩ := step_cases s <;> rw [he] at h
  · cases h; exact hs
  · cases h; exact topOfCycle_inv hs (not_halted hh).2 hp _ _
  · exact fetchDecodeExecute_inv (beginStep_inv hs (enabled_iff.mp hen).1 n) hen nofun h
  · cases h; exact endOfCycle_inv hs (running_of_batch hs (not_halted hh).1 hp)

end Sys2Proof.Machine

end

section
/-! PROOF. What a step of the machine can do to memory, and what the next fetch reads of it (20_memory.md). -/

namespace Sys2Proof.Machine

/-- Looking for a key-wait completion leaves memory alone (45_input.md R163). -/
@[simp] theorem completeKeyWait_mem (old : Keys) (s : State) : (completeKeyWait old s).mem = s.mem := by
  obtain ⟨-, he⟩ | ⟨r, k, -, -, he⟩ := completeKeyWait_cases old s <;> rw [he]
  rfl

/-- The top of a cycle leaves memory alone (60_exceptions.md R179 steps 2 to 5). -/
@[simp] theorem topOfCycle_mem (ipc : Nat) (inp : HostInput) (s : State) :
    (topOfCycle ipc inp s).mem = s.mem := by
  obtain ⟨-, he⟩ | ⟨-, he⟩ | ⟨-, he⟩ := topOfCycle_cases ipc inp s <;> rw [he] <;> simp

/-- The end of a cycle leaves memory alone (R179 steps 7 and 8). -/
@[simp] theorem endOfCycle_mem (s : State) : (endOfCycle s).mem = s.mem := by
  by_cases hrs : s.rs = .running
  · rw [endOfCycle_running s hrs]
  · rw [endOfCycle_other s hrs]

/-- Memory `m'` is `m`, or `m` with one block replaced that lies inside the writable addresses, from ENTRY to 4095
(20_memory.md R55, R56). -/
def SameOrStored (m m' : Memory) : Prop :=
  m' = m ∨ ∃ (base : Nat) (bs : List Byte),
    512 ≤ base ∧ base + bs.length ≤ 4096 ∧ m' = m.writeBytes base bs

/-- Such a change keeps the canonical form: the block is inside memory. -/
theorem SameOrStored.wf {m m' : Memory} (h : SameOrStored m m') (hm : m.wf) : m'.wf := by
  obtain rfl | ⟨base, bs, -, hhigh, rfl⟩ := h
  · exact hm
  · exact writeBytes_wf bs m base hm hhigh

/-- Such a change keeps the bytes below ENTRY: the block begins at ENTRY or above. -/
theorem SameOrStored.read_reserved {m m' : Memory} (h : SameOrStored m m') {a : Nat} (ha : a < 512) :
    m'.read a = m.read a := by
  obtain rfl | ⟨base, bs, hlow, -, rfl⟩ := h
  · rfl
  · exact read_writeBytes_outside bs m base a (by omega)

/-- Memory after an instruction step: only a decoded instruction stores (40_control_flow.md R100). -/
theorem fetchDecodeExecute_mem {s t : State} (h : fetchDecodeExecute s = .next t) :
    SameOrStored s.mem t.mem := by
  obtain ⟨-, he⟩ | ⟨-, -, he⟩ | ⟨-, i, -, he⟩ := fetchDecodeExecute_cases s <;> rw [he] at h
  · cases h; exact .inl rfl
  · cases h; exact .inl rfl
  · obtain hm | ⟨-, bs, -, hlow, hhigh, hm⟩ := exec_mem h
    · exact .inl hm
    · exact .inr ⟨s.base, bs, hlow, hhigh, hm⟩

/-- Memory after a step of the machine: of the four kinds of event of R179 only the instruction step stores. -/
theorem step_mem {s t : State} (h : step s = .next t) : SameOrStored s.mem t.mem := by
  obtain ⟨-, he⟩ | ⟨-, -, he⟩ | ⟨n, -, -, -, he⟩ | ⟨n, -, -, -, he⟩ := step_cases s <;> rw [he] at h
  · cases h; exact .inl rfl
  · cases h; exact .inl (topOfCycle_mem _ _ s)
  · exact fetchDecodeExecute_mem (s := beginStep n s) h
  · cases h; exact .inl (endOfCycle_mem s)

/-- Settles O44: a step changes memory at most by a block store inside it. -/
theorem memoryStaysCanonical : Obligations.MemoryStaysCanonical :=
  fun _ _ hs h => (step_mem h).wf hs

/-- Settles O45: a step stores at ENTRY or above only. -/
theorem reservedBytesNeverChange : Obligations.ReservedBytesNeverChange :=
  fun _ _ _ h ha => (step_mem h).read_reserved ha

/-- LD [I],Vx with its block inside the writable addresses completes (20_memory.md R55, R56; R132). -/
theorem exec_ldMemVx {x : RegIx} {s : State} (hlow : 512 ≤ s.base) (hhigh : s.base + x.val ≤ 4095) :
    exec (.ldMemVx x) s = .next (s.setMem (s.mem.writeBytes s.base (s.regsUpTo x))).advance := by
  have hlen := regsUpTo_length s x
  obtain ⟨-, -, hb⟩ | ⟨hout, -⟩ | ⟨-, hres, -⟩ := storeBlock_cases s.base (s.regsUpTo x) s (by omega)
  · simp [exec, execLdMemVx, complete, hb]
  · omega
  · omega

/-- `V[0]` to `V[x]`, stored from `base` up in a canonical memory, are read back at their places (R58). -/
theorem read_writeBytes_regsUpTo {m : Memory} {base : Nat} {x k : RegIx} (s : State) (hm : m.wf)
    (hhigh : base + x.val ≤ 4095) (hk : k ≤ x) :
    (m.writeBytes base (s.regsUpTo x)).read (base + k.val) = s.reg k := by
  have hlen := regsUpTo_length s x
  have hk' : k.val < (s.regsUpTo x).length := by rw [hlen]; exact Nat.lt_succ_of_le hk
  have hfit : base + (s.regsUpTo x).length ≤ memSize := by
    rw [hlen, show memSize = 4096 from rfl]; omega
  rw [read_writeBytes _ m base k.val hm hk' hfit, regsUpTo_getElem s x k.val hk']

/-- Settles O30: `PC` after the store is `I`, so the fetch reads the first two bytes stored. -/
theorem storedWordIsFetchedNext : Obligations.StoredWordIsFetchedNext := by
  intro x s hm hx hlow hhigh hI
  refine ⟨_, exec_ldMemVx hlow hhigh, ?_⟩
  have hbase : s.base = s.iReg.toNat := rfl
  set t := (s.setMem (s.mem.writeBytes s.base (s.regsUpTo x))).advance with ht
  have hpc : t.pc.toNat = s.base := by
    rw [ht, advance_pc, setMem_pc, toNat_add_two (by omega), hbase, hI]
  have hle : t.pc.toNat ≤ 4094 := by omega
  have h0 : t.mem.read s.base = s.reg 0 :=
    read_writeBytes_regsUpTo (k := 0) s hm hhigh (Fin.zero_le x)
  have h1 : t.mem.read (s.base + 1) = s.reg 1 :=
    read_writeBytes_regsUpTo (k := 1) s hm hhigh (Fin.le_def.mpr hx)
  rw [fetch_wordAt t hle, hpc, State.wordAt, h0, h1]

end Sys2Proof.Machine

end

section
/-! PROOF. The encoding: the decoder and the encoder are inverse to each other, the decoder follows the opcode map, and
the words it does not know are the listed ones (30_encoding.md R71 to R76). -/

namespace Sys2Proof

/-- The decoder reads an instruction from the word of that instruction, by the format of its row (R72, R75). -/
theorem decode_encode (i : Instr) : decode (encode i) = .ok i := by
  cases i with
  | cls | ret => decide
  | jp | call | ldI | jpV0 => simp [encode, decode, select, fieldsOf_wordNNN]
  | seImm | sneImm | ldImm | addImm | rnd => simp [encode, decode, select, fieldsOf_wordXNN]
  | seReg | sneReg | drw => simp [encode, decode, select, fieldsOf_wordXYN]
  | ldReg | orReg | andReg | xorReg | addReg | subReg | shr | subnReg | shl =>
    simp [encode, decode, select, selectArith, fieldsOf_wordXYN]
  | skp | sknp => simp [encode, decode, select, selectKey, fieldsOf_wordXNN]
  | ldVxDt | ldVxK | ldDtVx | ldStVx | addI | ldF | ldB | ldMemVx | ldVxMem =>
    simp [encode, decode, select, selectMisc, fieldsOf_wordXNN]

/-- The decoder and the encoder are inverse to each other. -/
theorem decode_eq_ok_iff {op : Word} {i : Instr} : decode op = .ok i ↔ encode i = op :=
  ⟨encode_of_decode, fun h => h ▸ decode_encode i⟩

/-- Settles O1, by the format of the instruction's row. -/
theorem decodeGivesBackEncoded : Obligations.DecodeGivesBackEncoded := decode_encode

/-- Settles O2: dispatch answers with the word's own fields. -/
theorem encodeGivesBackDecoded : Obligations.EncodeGivesBackDecoded := fun _ _ => encode_of_decode

/-- Two rows whose matches differ on a bit that both masks keep share no word (R75). -/
theorem OpcodeRow.disjoint_of_pattern_ne {r q : OpcodeRow} (h : r.pattern &&& q.mask ≠ q.pattern &&& r.mask)
    (op : Word) : ¬(r.selects op = true ∧ q.selects op = true) := by
  rintro ⟨hr, hq⟩
  have hr : op &&& r.mask = r.pattern := beq_iff_eq.mp hr
  have hq : op &&& q.mask = q.pattern := beq_iff_eq.mp hq
  exact h (by rw [← hr, ← hq, BitVec.and_assoc, BitVec.and_assoc, BitVec.and_comm r.mask])

/-- Every instruction's word selects the instruction's own row (R75). -/
theorem encode_selects_row (i : Instr) : ∃ r, i.row = some r ∧ encode i &&& r.mask = r.pattern := by
  have h : Laws.EncodesItsRow.Statement i := by
    open Laws.EncodesItsRow in
    cases i
    exacts [cls, ret, jp _, call _, seImm _ _, sneImm _ _, seReg _ _, ldImm _ _, addImm _ _, ldReg _ _, orReg _ _,
      andReg _ _, xorReg _ _, addReg _ _, subReg _ _, shr _ _, subnReg _ _, shl _ _, sneReg _ _, ldI _, jpV0 _,
      rnd _ _, drw _ _ _, skp _, sknp _, ldVxDt _, ldVxK _, ldDtVx _, ldStVx _, addI _, ldF _, ldB _, ldMemVx _,
      ldVxMem _]
  obtain ⟨r, hrow, hsel⟩ := h
  exact ⟨r, hrow, beq_iff_eq.mp hsel⟩

/-- The fields of a masked word are the masked fields of the word (R71). -/
theorem fieldsOf_and (op m : Word) :
    (fieldsOf (op &&& m)).family = (fieldsOf op).family &&& (fieldsOf m).family ∧
    (fieldsOf (op &&& m)).n = (fieldsOf op).n &&& (fieldsOf m).n ∧
    (fieldsOf (op &&& m)).nn = (fieldsOf op).nn &&& (fieldsOf m).nn := by
  simp [fieldsOf, BitVec.extractLsb'_and]

/-- A mask that keeps all of the family fixes it (R75). -/
theorem family_of_mask {op m p : Word} (h : op &&& m = p) (hm : (fieldsOf m).family = .allOnes 4) :
    (fieldsOf op).family = (fieldsOf p).family := by
  obtain ⟨hf, -, -⟩ := fieldsOf_and op m
  rw [← h, hf, hm, BitVec.and_allOnes]

/-- A row without operands selects its match alone. -/
theorem eq_of_mask {op p : Word} (h : op &&& 0xFFFF#16 = p) : op = p :=
  BitVec.and_allOnes.symm.trans h

/-- A row of format X selects words of format XNN with its own selector. -/
theorem wordX_of_mask {op p : Word} (h : op &&& 0xF0FF#16 = p) :
    wordXNN (fieldsOf p).family (fieldsOf op).x (fieldsOf p).nn = op := by
  obtain ⟨-, -, hnn⟩ := fieldsOf_and op 0xF0FF#16
  have hk : (fieldsOf op).nn = (fieldsOf p).nn := by rw [← h, hnn]; exact BitVec.and_allOnes.symm
  exact hk ▸ wordXNN_fieldsOf (family_of_mask h rfl)

/-- A row of format XYN selects words of that format with its own selector. -/
theorem wordXYN_of_mask {op p : Word} (h : op &&& 0xF00F#16 = p) :
    wordXYN (fieldsOf p).family (fieldsOf op).x (fieldsOf op).y (fieldsOf p).n = op := by
  obtain ⟨-, hn, -⟩ := fieldsOf_and op 0xF00F#16
  exact wordXYN_fieldsOf (family_of_mask h rfl) (by rw [← h, hn]; exact BitVec.and_allOnes.symm)

/-- A word that selects a row of the opcode map is an instruction's word (R75): row by row, in the table's order. Each
`(… :)` fixes the row's match before the instruction's word is compared with it. -/
theorem exists_encode_of_mask {op : Word} :
    ∀ r ∈ opcodeTable, op &&& r.mask = r.pattern → ∃ i, encode i = op := by
  simp only [opcodeTable, opcodeRowsLow, opcodeRowsHigh, List.cons_append, List.nil_append, List.forall_mem_cons]
  exact ⟨
    fun h => ⟨.cls, (eq_of_mask h).symm⟩,
    fun h => ⟨.ret, (eq_of_mask h).symm⟩,
    fun h => ⟨.jp _, wordNNN_fieldsOf (family_of_mask h rfl)⟩,
    fun h => ⟨.call _, wordNNN_fieldsOf (family_of_mask h rfl)⟩,
    fun h => ⟨.seImm _ _, wordXNN_fieldsOf (family_of_mask h rfl)⟩,
    fun h => ⟨.sneImm _ _, wordXNN_fieldsOf (family_of_mask h rfl)⟩,
    fun h => ⟨.seReg _ _, (wordXYN_of_mask h :)⟩,
    fun h => ⟨.ldImm _ _, wordXNN_fieldsOf (family_of_mask h rfl)⟩,
    fun h => ⟨.addImm _ _, wordXNN_fieldsOf (family_of_mask h rfl)⟩,
    fun h => ⟨.ldReg _ _, (wordXYN_of_mask h :)⟩,
    fun h => ⟨.orReg _ _, (wordXYN_of_mask h :)⟩,
    fun h => ⟨.andReg _ _, (wordXYN_of_mask h :)⟩,
    fun h => ⟨.xorReg _ _, (wordXYN_of_mask h :)⟩,
    fun h => ⟨.addReg _ _, (wordXYN_of_mask h :)⟩,
    fun h => ⟨.subReg _ _, (wordXYN_of_mask h :)⟩,
    fun h => ⟨.shr _ _, (wordXYN_of_mask h :)⟩,
    fun h => ⟨.subnReg _ _, (wordXYN_of_mask h :)⟩,
    fun h => ⟨.shl _ _, (wordXYN_of_mask h :)⟩,
    fun h => ⟨.sneReg _ _, (wordXYN_of_mask h :)⟩,
    fun h => ⟨.ldI _, wordNNN_fieldsOf (family_of_mask h rfl)⟩,
    fun h => ⟨.jpV0 _, wordNNN_fieldsOf (family_of_mask h rfl)⟩,
    fun h => ⟨.rnd _ _, wordXNN_fieldsOf (family_of_mask h rfl)⟩,
    fun h => ⟨.drw _ _ _, wordXYN_fieldsOf (family_of_mask h rfl) rfl⟩,
    fun h => ⟨.skp _, (wordX_of_mask h :)⟩,
    fun h => ⟨.sknp _, (wordX_of_mask h :)⟩,
    fun h => ⟨.ldVxDt _, (wordX_of_mask h :)⟩,
    fun h => ⟨.ldVxK _, (wordX_of_mask h :)⟩,
    fun h => ⟨.ldDtVx _, (wordX_of_mask h :)⟩,
    fun h => ⟨.ldStVx _, (wordX_of_mask h :)⟩,
    fun h => ⟨.addI _, (wordX_of_mask h :)⟩,
    fun h => ⟨.ldF _, (wordX_of_mask h :)⟩,
    fun h => ⟨.ldB _, (wordX_of_mask h :)⟩,
    fun h => ⟨.ldMemVx _, (wordX_of_mask h :)⟩,
    fun h => ⟨.ldVxMem _, (wordX_of_mask h :)⟩,
    nofun⟩

/-- Settles O3: the decoded words are the encoded ones, and those are the words that select a row. -/
theorem decoderFollowsOpcodeMap : Obligations.DecoderFollowsOpcodeMap := by
  have hpatterns : opcodeTable.Pairwise fun r q => r.pattern &&& q.mask ≠ q.pattern &&& r.mask := by decide
  refine ⟨rfl, hpatterns.imp OpcodeRow.disjoint_of_pattern_ne, fun op => ?_⟩
  simp only [decode_eq_ok_iff]
  refine ⟨⟨?_, fun ⟨r, hr, hsel⟩ => exists_encode_of_mask r hr hsel⟩, ?_⟩
  · rintro ⟨i, rfl⟩
    obtain ⟨r, hrow, hsel⟩ := encode_selects_row i
    exact ⟨r, List.mem_of_getElem? hrow, hsel⟩
  · rintro i rfl
    exact encode_selects_row i

/-- A test that answers with an instruction does not reject. -/
theorem ite_ok_eq_error_iff {c : Prop} [Decidable c] {i : Instr} {a : Except DecodeError Instr} {e : DecodeError} :
    (if c then .ok i else a) = .error e ↔ ¬c ∧ a = .error e := by
  split_ifs with h <;> simp [h]

/-- The selectors family 0x8 rejects (R76). -/
theorem selectArith_error_iff (f : Fields) : selectArith f = .error (.unknownOpcode f.op) ↔
    f.n.toNat ∈ [0x8, 0x9, 0xA, 0xB, 0xC, 0xD, 0xF] := by
  have hn := f.n.isLt
  simp only [selectArith, ite_ok_eq_error_iff, ← BitVec.toNat_inj, BitVec.toNat_ofNat, and_true, List.mem_cons,
    List.not_mem_nil, or_false]
  omega

/-- The selectors family 0xE rejects (R76). -/
theorem selectKey_error_iff (f : Fields) : selectKey f = .error (.unknownOpcode f.op) ↔
    f.nn.toNat ∉ [0x9E, 0xA1] := by
  simp [selectKey, ite_ok_eq_error_iff, ← BitVec.toNat_inj]

/-- The selectors family 0xF rejects (R76). -/
theorem selectMisc_error_iff (f : Fields) : selectMisc f = .error (.unknownOpcode f.op) ↔
    f.nn.toNat ∉ [0x07, 0x0A, 0x15, 0x18, 0x1E, 0x29, 0x33, 0x55, 0x65] := by
  simp [selectMisc, ite_ok_eq_error_iff, ← BitVec.toNat_inj]

/-- The families and selectors dispatch rejects (R74, R76). -/
theorem select_error_iff (f : Fields) : select f = .error (.unknownOpcode f.op) ↔
    (f.family.toNat = 0x0 ∧ f.op.toNat ≠ 0x00E0 ∧ f.op.toNat ≠ 0x00EE) ∨
    (f.family.toNat = 0x5 ∧ f.n.toNat ≠ 0) ∨
    (f.family.toNat = 0x8 ∧ f.n.toNat ∈ [0x8, 0x9, 0xA, 0xB, 0xC, 0xD, 0xF]) ∨
    (f.family.toNat = 0x9 ∧ f.n.toNat ≠ 0) ∨
    (f.family.toNat = 0xE ∧ f.nn.toNat ∉ [0x9E, 0xA1]) ∨
    (f.family.toNat = 0xF ∧ f.nn.toNat ∉ [0x07, 0x0A, 0x15, 0x18, 0x1E, 0x29, 0x33, 0x55, 0x65]) := by
  rw [← selectArith_error_iff, ← selectKey_error_iff, ← selectMisc_error_iff]
  obtain ⟨k, hk⟩ : ∃ k : Fin 16, f.family = BitVec.ofFin k := ⟨f.family.toFin, rfl⟩
  fin_cases k <;> simp [select, hk, ite_ok_eq_error_iff, ← BitVec.toNat_inj]

/-- Settles O4: what dispatch rejects, with the fields as numbers. -/
theorem unknownWordsAreTheListed : Obligations.UnknownWordsAreTheListed := by
  intro op
  obtain ⟨hop, hf, -, -, hn, hnn, -⟩ := fieldsOf_toNat op
  simpa only [decode, hop, hf, hn, hnn] using select_error_iff (fieldsOf op)

/-- A bit of a register index the decoder takes from a word is the bit of the word it stands for (R71). -/
theorem testBit_extractLsb'_toFin (op : Word) (a j : Nat) (hj : j < 4) :
    (op.extractLsb' a 4).toFin.val.testBit j = op.getLsbD (a + j) :=
  (BitVec.getLsbD_extractLsb' ..).trans (by simp [hj])

/-- Bits 7:0 of a word are its second byte (20_memory.md R52). -/
theorem getLsbD_wordOfBytes_low (b0 b1 : Byte) {j : Nat} (hj : j < 8) :
    (wordOfBytes b0 b1).getLsbD j = b1.getLsbD j :=
  (BitVec.getLsbD_append ..).trans (by simp [hj])

/-- Bits 15:8 of a word are its first byte (R52). -/
theorem getLsbD_wordOfBytes_high (b0 b1 : Byte) (j : Nat) :
    (wordOfBytes b0 b1).getLsbD (8 + j) = b0.getLsbD j :=
  (BitVec.getLsbD_append ..).trans (by simp)

/-- Settles O5: the bits of the word first, then the byte each of them lies in. -/
theorem fieldsAreTheNamedBits : Obligations.FieldsAreTheNamedBits := by
  intro op
  have hfamily : ∀ j, j < 4 → (fieldsOf op).family.getLsbD j = op.getLsbD (12 + j) :=
    fun j hj => by simp [fieldsOf, hj]
  have hx : ∀ j, j < 4 → (fieldsOf op).x.val.testBit j = op.getLsbD (8 + j) := testBit_extractLsb'_toFin op 8
  have hy : ∀ j, j < 4 → (fieldsOf op).y.val.testBit j = op.getLsbD (4 + j) := testBit_extractLsb'_toFin op 4
  have hn : ∀ j, j < 4 → (fieldsOf op).n.getLsbD j = op.getLsbD j := fun j hj => by simp [fieldsOf, hj]
  have hnn : ∀ j, j < 8 → (fieldsOf op).nn.getLsbD j = op.getLsbD j := fun j hj => by simp [fieldsOf, hj]
  have hnnn : ∀ j, j < 12 → (fieldsOf op).nnn.getLsbD j = op.getLsbD j := fun j hj => by simp [fieldsOf, hj]
  refine ⟨rfl, hfamily, hx, hy, hn, hnn, hnnn, ?_⟩
  rintro b0 b1 rfl
  refine ⟨fun j hj => ?_, fun j hj => ?_, fun j hj => ?_, fun j hj => ?_, BitVec.eq_of_getLsbD_eq fun j hj => ?_,
    fun j hj => ?_, fun j hj => ?_⟩
  · rw [hfamily j hj, show 12 + j = 8 + (4 + j) by omega, getLsbD_wordOfBytes_high]
  · rw [hx j hj, getLsbD_wordOfBytes_high]
  · rw [hy j hj, getLsbD_wordOfBytes_low b0 b1 (by omega)]
  · rw [hn j hj, getLsbD_wordOfBytes_low b0 b1 (by omega)]
  · rw [hnn j hj, getLsbD_wordOfBytes_low b0 b1 hj]
  · rw [hnnn j (by omega), getLsbD_wordOfBytes_low b0 b1 hj]
  · rw [hnnn (8 + j) (by omega), getLsbD_wordOfBytes_high]

/-- Settles O6: each word is what the encoder makes of its instruction. -/
theorem writtenOutWordsDecode : Obligations.WrittenOutWordsDecode :=
  ⟨decode_encode .cls, decode_encode (.jp 0x234#12), decode_encode (.addReg 3 4), decode_encode (.drw 0 1 5#4),
    decode_encode (.skp 2), decode_encode (.ldVxDt 3), decode_encode (.ldMemVx 2)⟩

end Sys2Proof

end

section
/-! PROOF. The instruction step and the control flow instructions: jumps, CALL and RET, and the register skips
(40_control_flow.md R100 to R108). -/

namespace Sys2Proof

/-- The opcode table's 16-bit number of a word names that word. -/
@[simp] theorem tableWord_toNat (w : Word) : tableWord 16 w.toNat = w := by
  rw [tableWord, Nat.mod_eq_of_lt w.isLt, BitVec.ofNat_toNat, BitVec.setWidth_eq]

/-- A word laid out in memory order is read by the decoder as that word (20_memory.md R52). -/
theorem decodeTableWord_eq_some_iff {w : Word} {i : Instr} :
    decodeTableWord 16 w.toNat = some i ↔ decode w = .ok i := by
  simp only [decodeTableWord, decodeBytes, tableWord_toNat, wordOfBytes_high_low]
  cases decode w <;> simp

end Sys2Proof

namespace Sys2Proof.Machine

/-- An address operand is its own number (30_encoding.md R73). -/
theorem toNat_addressOperand (nnn : BitVec 12) : (addressOperand nnn).toNat = nnn.toNat :=
  BitVec.toNat_setWidth_of_le (by decide)

/-- A byte as a word is its own number (00_scope.md R6). -/
theorem toNat_wordOfByte (b : Byte) : (wordOfByte b).toNat = b.toNat :=
  BitVec.toNat_setWidth_of_le (by decide)

/-- CALL with a free stack entry (40_control_flow.md R103). -/
theorem exec_call_of_lt (nnn : BitVec 12) {s : State} (h : s.sp.val < 16) :
    exec (.call nnn) s = .next { s with
      stack := s.stack.set s.sp.val (s.pc + 2)
      sp := ⟨s.sp.val + 1, by omega⟩
      pc := addressOperand nnn } := by
  obtain ⟨_, hp⟩ | ⟨hfull, _⟩ := push_cases (s.pc + 2) s
  · simp only [exec, execCall, hp]; rfl
  · omega

/-- CALL with a full stack (R103). -/
theorem exec_call_full (nnn : BitVec 12) {s : State} (h : s.sp.val = 16) :
    exec (.call nnn) s = .next (takeFault .stackOverflow (some (encode (.call nnn))) s) := by
  obtain ⟨hlt, _⟩ | ⟨_, hp⟩ := push_cases (s.pc + 2) s
  · omega
  · simp only [exec, execCall, hp]; rfl

/-- RET with an entry to pop (R101). -/
theorem exec_ret_of_pos {s : State} (h : 0 < s.sp.val) :
    exec .ret s = .next { s with sp := ⟨s.sp.val - 1, by omega⟩, pc := s.stack[s.sp.val - 1] } := by
  obtain ⟨_, hp⟩ | ⟨hempty, _⟩ := pop_cases s
  · simp only [exec, execRet, hp]; rfl
  · omega

/-- RET with an empty stack (R101). -/
theorem exec_ret_empty {s : State} (h : s.sp.val = 0) :
    exec .ret s = .next (takeFault .stackUnderflow (some (encode .ret)) s) := by
  obtain ⟨hpos, _⟩ | ⟨_, hp⟩ := pop_cases s
  · omega
  · simp only [exec, execRet, hp]; rfl

/-- Settles O13: CALL by its two cases, a free entry and a full stack. -/
theorem callPushesOrOverflows : Obligations.CallPushesOrOverflows := by
  intro nnn s
  refine ⟨wordNNN_toNat 0x2#4 nnn, fun h => ?_, exec_call_full nnn⟩
  refine ⟨_, exec_call_of_lt nnn h, toNat_addressOperand nnn, rfl, fun k => ?_, rfl⟩
  simp only [Vector.getElem_set, eq_comm]

/-- Settles O14: RET by its two cases; after a CALL it pops the entry just pushed, and the entries below keep
their values. -/
theorem retPopsOrUnderflows : Obligations.RetPopsOrUnderflows := by
  refine ⟨rfl, fun s => ⟨fun h => ?_, exec_ret_empty⟩, fun nnn s h => ?_⟩
  · exact ⟨_, exec_ret_of_pos h, rfl, rfl, rfl⟩
  refine ⟨_, _, exec_call_of_lt nnn h, exec_ret_of_pos (Nat.succ_pos _), ?_, rfl, fun k hk => ?_⟩
  · exact Vector.getElem_set_self h
  · exact Vector.getElem_set_ne h _ (by omega)

/-- An enabled step with budget left is an instruction step (60_exceptions.md R179 step 6). -/
theorem step_of_enabled {s : State} {n : Nat} (hp : s.phase = .batch (n + 1)) (hen : s.enabled = true) :
    step s = fetchDecodeExecute (beginStep n s) := by
  obtain ⟨hrs, _, hf⟩ := enabled_iff.mp hen
  have hh : s.halted = false := by simp [State.halted, hrs, hf]
  simp [step, stepWith, nextEvent, hh, hp, hen, instructionStep]

/-- An instruction step runs the instruction that the word at `PC` decodes to (40_control_flow.md R100). -/
theorem fetchDecodeExecute_of_decode {s : State} {i : Instr} (hpc : s.pc.toNat ≤ 4094)
    (hd : decode (s.wordAt s.pc.toNat) = .ok i) : fetchDecodeExecute s = exec i s := by
  simp only [fetchDecodeExecute, fetch_wordAt s hpc, hd]

/-- Settles O7: the fetch reads the word at `PC`, which `beginStep` leaves as it was. -/
theorem stepRunsDecodedInstruction : Obligations.StepRunsDecodedInstruction := by
  intro s n i hp hrs hw hf hpc hd
  rw [step_of_enabled hp (enabled_iff.mpr ⟨hrs, hw, hf⟩)]
  exact fetchDecodeExecute_of_decode (s := beginStep n s) hpc hd

/-- The phase of a placed word leaves a step of the budget for it. -/
theorem instructionPhase_eq_batch (p : Phase) : ∃ n, instructionPhase p = .batch (n + 1) := by
  match p with
  | .cycleTop | .batch 0 => exact ⟨0, rfl⟩
  | .batch (n + 1) => exact ⟨n, rfl⟩

/-- The word placed in a canonical memory is the word at `PC` (20_memory.md R52). -/
theorem wordAt_placeWord {s : State} (w : Word) (hm : s.mem.wf) (hpc : s.pc.toNat ≤ 4094) :
    (placeWord w s).wordAt s.pc.toNat = w := by
  have hfit : s.pc.toNat + [highByte w, lowByte w].length ≤ memSize := by
    simp only [List.length_cons, List.length_nil, memSize]; omega
  have hhigh := read_writeBytes [highByte w, lowByte w] s.mem s.pc.toNat 0 hm (by simp) hfit
  have hlow := read_writeBytes [highByte w, lowByte w] s.mem s.pc.toNat 1 hm (by simp) hfit
  rw [Nat.add_zero] at hhigh
  simp only [State.wordAt, placeWord, if_pos hpc, hhigh, hlow]
  exact wordOfBytes_high_low w

/-- Settles O48: the placed state is enabled and its word at `PC` is `w`. -/
theorem placedWordRunsNext : Obligations.PlacedWordRunsNext := by
  intro s w i hm hpc hd
  obtain ⟨n, hn⟩ := instructionPhase_eq_batch s.phase
  have hw : decode ((placeWord w s).wordAt s.pc.toNat) = .ok i := by
    rw [wordAt_placeWord w hm hpc]
    exact decodeTableWord_eq_some_iff.mp hd
  rw [State.withFetchWord, tableWord_toNat]
  exact ⟨n, stepRunsDecodedInstruction (placeWord w s) n i hn rfl rfl rfl hpc hw⟩

/-- Settles O12: the sum of JP V0 is at most 4350, so it does not wrap. -/
theorem jumpsSetPc : Obligations.JumpsSetPc := by
  intro nnn s
  refine ⟨wordNNN_toNat 0x1#4 nnn, wordNNN_toNat 0xB#4 nnn, ⟨_, rfl, toNat_addressOperand nnn, rfl⟩,
    ⟨_, rfl, ?_, rfl⟩⟩
  have hn := toNat_addressOperand_le nnn
  have hb := toNat_wordOfByte_le (s.reg 0)
  rw [setPc_pc, BitVec.toNat_add_of_lt (by omega), toNat_addressOperand, toNat_wordOfByte]

/-- A conditional skip under the condition `p`: `PC` ends at `a + 4` or at `a + 2` (R104 to R107). -/
theorem skipIf_of_iff {c : Bool} {p : Prop} [Decidable p] (s : State) (h : c = true ↔ p) :
    s.skipIf c = { s with pc := if p then s.pc + 4 else s.pc + 2 } := by
  rw [skipIf_eq, BitVec.add_assoc]
  simp only [h]
  rfl

/-- Settles O15: each skip is `skipIf` of its condition. -/
theorem registerSkipsAddTwo : Obligations.RegisterSkipsAddTwo := by
  intro x y nn s
  refine ⟨wordXNN_toNat 0x3#4 x nn, wordXNN_toNat 0x4#4 x nn, wordXYN_toNat 0x5#4 x y 0, wordXYN_toNat 0x9#4 x y 0,
    ?_, ?_, ?_, ?_⟩
  · exact congrArg Host.Outcome.next (skipIf_of_iff s beq_iff_eq)
  · exact congrArg Host.Outcome.next (skipIf_of_iff s bne_iff_ne)
  · exact congrArg Host.Outcome.next (skipIf_of_iff s beq_iff_eq)
  · exact congrArg Host.Outcome.next (skipIf_of_iff s bne_iff_ne)

end Sys2Proof.Machine

end

section
/-! PROOF. Arithmetic, logic and random (41_arithmetic_logic.md R110 to R123). -/

namespace Sys2Proof

/-- The number of a word of format XYN, the fixed fields before the register fields, as R75 writes its patterns. -/
theorem wordXYN_toNat_pattern (f : BitVec 4) (x y : RegIx) (n : BitVec 4) :
    (wordXYN f x y n).toNat = f.toNat * 4096 + n.toNat + x.val * 256 + y.val * 16 := by
  rw [wordXYN_toNat]
  omega

end Sys2Proof

namespace Sys2Proof.Machine

/-- An instruction that ends in `writeReg` leaves `V[x]` at the byte written. -/
theorem reg_of_next_writeReg {s t : State} {x : RegIx} {b : Byte}
    (h : (.next (s.writeReg x b) : Result) = .next t) : t.reg x = b := by
  cases h
  exact reg_setReg_same s x b

/-- The six instructions that write one register and no flag (R110 to R115). -/
theorem exec_eq_writeReg {i : Instr} {x y : RegIx} {nn : Byte} (s : State)
    (hi : i ∈ [Instr.ldImm x nn, .addImm x nn, .ldReg x y, .orReg x y, .andReg x y, .xorReg x y]) :
    ∃ b, exec i s = .next (s.writeReg x b) := by
  simp only [List.mem_cons, List.not_mem_nil, or_false] at hi
  obtain rfl | rfl | rfl | rfl | rfl | rfl := hi <;> exact ⟨_, rfl⟩

/-- Settles O17: each of the six is a `writeReg` of its result. -/
theorem setCopyAndLogicWriteOneRegister : Obligations.SetCopyAndLogicWriteOneRegister := by
  intro x y nn s
  refine ⟨wordXNN_toNat 0x6#4 x nn, wordXNN_toNat 0x7#4 x nn, wordXYN_toNat 0x8#4 x y 0,
    wordXYN_toNat_pattern 0x8#4 x y 1, wordXYN_toNat_pattern 0x8#4 x y 2, wordXYN_toNat_pattern 0x8#4 x y 3,
    fun i hi => ?_⟩
  obtain ⟨b, h⟩ := exec_eq_writeReg s hi
  refine ⟨s.writeReg x b, h, rfl, fun j hj => reg_setReg_ne s x j b hj, ?_, ?_, ?_, ?_, ?_, ?_⟩ <;> rintro rfl
  · exact reg_of_next_writeReg h
  · exact (congrArg BitVec.toNat (reg_of_next_writeReg h)).trans (BitVec.toNat_add _ _)
  · exact reg_of_next_writeReg h
  · exact fun k _ => (congrArg (·.getLsbD k) (reg_of_next_writeReg h)).trans BitVec.getLsbD_or
  · exact fun k _ => (congrArg (·.getLsbD k) (reg_of_next_writeReg h)).trans BitVec.getLsbD_and
  · exact fun k _ => (congrArg (·.getLsbD k) (reg_of_next_writeReg h)).trans BitVec.getLsbD_xor

/-- Another destination than `VF` keeps the result of a flag-writing instruction (R123). -/
theorem reg_writeRegFlag_result {x : RegIx} (hx : x ≠ 15) (s : State) (b : Byte) (c : Bool) :
    (s.writeRegFlag x b c).reg x = b := by
  rw [reg_writeRegFlag, if_neg hx, if_pos rfl]

/-- `VF` ends with the flag, whatever the destination is (R123). -/
@[simp] theorem reg_writeRegFlag_vf (s : State) (x : RegIx) (b : Byte) (c : Bool) :
    (s.writeRegFlag x b c).reg 15 = flagByte c := by
  rw [reg_writeRegFlag, if_pos rfl]

/-- A register that is neither the destination nor `VF` is not written (R123). -/
theorem reg_writeRegFlag_ne {s : State} {x : RegIx} {b : Byte} {c : Bool} (j : RegIx) (hx : j ≠ x) (hf : j ≠ 15) :
    (s.writeRegFlag x b c).reg j = s.reg j := by
  rw [reg_writeRegFlag, if_neg hf, if_neg hx]

/-- A flag as a number (R21). -/
@[simp] theorem toNat_flagByte (c : Bool) : (flagByte c).toNat = c.toNat := by
  cases c <;> rfl

/-- The carry as a number (R122 a). -/
theorem toNat_carryOut (p q : Byte) : (carryOut p q).toNat = if p.toNat + q.toNat > 255 then 1 else 0 :=
  Bool.cond_decide _ _ _

/-- Settles O18: the sum, then the carry over it. -/
theorem addWritesSumThenCarry : Obligations.AddWritesSumThenCarry := by
  intro x y s
  refine ⟨wordXYN_toNat_pattern 0x8#4 x y 4, _, rfl, rfl, fun hx => ?_, ?_, reg_writeRegFlag_ne⟩
  · rw [reg_writeRegFlag_result hx, BitVec.toNat_add]
  · rw [reg_writeRegFlag_vf, toNat_flagByte, toNat_carryOut]

/-- The difference of two bytes is that of their numbers, modulo 256 (00_scope.md R5). -/
theorem toNat_sub_emod (p q : Byte) : ((p - q).toNat : Int) = (p.toNat - q.toNat : Int) % 256 := by
  rw [BitVec.toNat_sub]
  omega

/-- No borrow as a number (R122 b). -/
theorem toNat_noBorrow (p q : Byte) : (noBorrow p q).toNat = if p.toNat ≥ q.toNat then 1 else 0 :=
  Bool.cond_decide _ _ _

/-- Settles O19: the difference, then no-borrow over it, with the operands in either order. -/
theorem subtractionsWriteDifferenceThenNoBorrow : Obligations.SubtractionsWriteDifferenceThenNoBorrow := by
  intro x y s
  refine ⟨wordXYN_toNat_pattern 0x8#4 x y 5, wordXYN_toNat_pattern 0x8#4 x y 7,
    ⟨_, rfl, rfl, fun hx => ?_, ?_, reg_writeRegFlag_ne⟩, ⟨_, rfl, rfl, fun hx => ?_, ?_, reg_writeRegFlag_ne⟩⟩
  · rw [reg_writeRegFlag_result hx, toNat_sub_emod]
  · rw [reg_writeRegFlag_vf, toNat_flagByte, toNat_noBorrow]
  · rw [reg_writeRegFlag_result hx, toNat_sub_emod]
  · rw [reg_writeRegFlag_vf, toNat_flagByte, toNat_noBorrow]

/-- The bit a right shift drops is the remainder of the halving (R122 c). -/
theorem toNat_bitOutRight (p : Byte) : (bitOutRight p).toNat = p.toNat % 2 := by
  rw [bitOutRight, BitVec.getLsbD, Nat.toNat_testBit, pow_zero, Nat.div_one]

/-- The bit a left shift drops is the top bit (R122 d). -/
theorem toNat_bitOutLeft (p : Byte) : (bitOutLeft p).toNat = p.toNat / 128 := by
  rw [bitOutLeft, BitVec.getLsbD, Nat.toNat_testBit]
  have := p.isLt
  omega

/-- Settles O20: the shifted `V[x]`, then the bit shifted out over it; `y` is in the word alone. -/
theorem shiftsWriteResultThenBitOut : Obligations.ShiftsWriteResultThenBitOut := by
  intro x y s
  refine ⟨wordXYN_toNat_pattern 0x8#4 x y 6, wordXYN_toNat_pattern 0x8#4 x y 0xE,
    ⟨_, rfl, rfl, fun hx => ?_, ?_, reg_writeRegFlag_ne⟩, ⟨_, rfl, rfl, fun hx => ?_, ?_, reg_writeRegFlag_ne⟩⟩
  · rw [reg_writeRegFlag_result hx, BitVec.toNat_ushiftRight, Nat.shiftRight_eq_div_pow, pow_one]
  · rw [reg_writeRegFlag_vf, toNat_flagByte, toNat_bitOutRight]
  · rw [reg_writeRegFlag_result hx, BitVec.toNat_shiftLeft, Nat.shiftLeft_eq, pow_one]
  · rw [reg_writeRegFlag_vf, toNat_flagByte, toNat_bitOutLeft]

/-- The destination of RND, for any drawn byte (R121). -/
@[simp] theorem reg_randomMasked_same (r : Byte) (x : RegIx) (nn : Byte) (s : State) :
    (randomMasked r x nn s).reg x = r &&& nn :=
  reg_setReg_same _ x _

/-- Settles O21: `V[x]` ends with the drawn byte masked, so each mask law is one of `&&&`. -/
theorem randomByteIsMasked : Obligations.RandomByteIsMasked := by
  intro x nn s
  refine ⟨wordXNN_toNat 0xC#4 x nn, ⟨_, rfl, rfl, reg_randomMasked_same _ x nn s, fun j hj => ?_⟩, fun r => ?_, rfl⟩
  · exact reg_setReg_ne _ x j _ hj
  rw [reg_randomMasked_same]
  refine ⟨fun b _ hb => ?_, ?_, ?_⟩
  · rw [BitVec.getLsbD_and, hb, Bool.and_false]
  · rintro rfl
    exact BitVec.and_zero
  · rintro rfl
    exact BitVec.and_allOnes

end Sys2Proof.Machine

end

section
/-! PROOF. The address register, block store and load, and decimal digits (42_memory_index.md R130 to R135). -/

namespace Sys2Proof

/-- The number of a word of format X, the fixed fields before the register field, as R75 writes its patterns. -/
theorem wordXNN_toNat_pattern (f : BitVec 4) (x : RegIx) (nn : Byte) :
    (wordXNN f x nn).toNat = f.toNat * 4096 + nn.toNat + x.val * 256 := by
  rw [wordXNN_toNat]
  omega

end Sys2Proof

namespace Sys2Proof.Machine

/-- LD B,Vx is a block store of the digits, then the fetch increment (R135). -/
theorem exec_ldB_eq_storeBlock (x : RegIx) (s : State) :
    exec (.ldB x) s =
      complete (.ldB x) s ((storeBlock s.base (decimalDigits (s.reg x)) s).map State.advance) := by
  simp only [exec, execLdB]
  cases storeBlock s.base (decimalDigits (s.reg x)) s <;> rfl

/-- LD [I],Vx is a block store of the registers, then the fetch increment (R132). -/
theorem exec_ldMemVx_eq_storeBlock (x : RegIx) (s : State) :
    exec (.ldMemVx x) s =
      complete (.ldMemVx x) s ((storeBlock s.base (s.regsUpTo x) s).map State.advance) := by
  simp only [exec, execLdMemVx]
  cases storeBlock s.base (s.regsUpTo x) s <;> rfl

section

variable {base : Nat} {bs : List Byte} (i : Instr) (s : State) (hlen : 0 < bs.length)

include hlen

/-- An instruction that ends in a block store completes when its block is inside the writable addresses
(20_memory.md R55, R56). -/
theorem complete_storeBlock_of_writable (hlow : 512 ≤ base) (hhigh : base + bs.length ≤ 4096) :
    complete i s ((storeBlock base bs s).map State.advance) =
      .next (s.setMem (s.mem.writeBytes base bs)).advance := by
  obtain ⟨-, -, he⟩ | ⟨hout, -⟩ | ⟨-, hres, -⟩ := storeBlock_cases base bs s hlen
  · rw [he]; rfl
  · omega
  · omega

/-- An instruction whose block store leaves memory faults with the first address above 4095 (R55). -/
theorem complete_storeBlock_of_outOfRange (hout : 4096 < base + bs.length) :
    complete i s ((storeBlock base bs s).map State.advance) =
      .next (takeFault (.dataOutOfRange (max base 4096)) (some (encode i)) s) := by
  obtain ⟨-, hhigh, -⟩ | ⟨-, he⟩ | ⟨hhigh, -⟩ := storeBlock_cases base bs s hlen
  · omega
  · rw [he]; rfl
  · omega

/-- An instruction whose block store begins below ENTRY, inside memory, faults with its first address (R56). -/
theorem complete_storeBlock_of_reserved (hhigh : base + bs.length ≤ 4096) (hres : base < 512) :
    complete i s ((storeBlock base bs s).map State.advance) =
      .next (takeFault (.reservedWrite base) (some (encode i)) s) := by
  obtain ⟨hlow, -⟩ | ⟨hout, -⟩ | ⟨-, -, he⟩ := storeBlock_cases base bs s hlen
  · omega
  · omega
  · rw [he]; rfl

end

/-- Settles O27: LD [I],Vx by the three answers of its block store. -/
theorem registersAreStoredOrFault : Obligations.RegistersAreStoredOrFault := by
  intro x s hm
  have hlen := regsUpTo_length s x
  have hpos : 0 < (s.regsUpTo x).length := by omega
  have hbase : s.base = s.iReg.toNat := rfl
  refine ⟨wordXNN_toNat_pattern 0xF#4 x 0x55#8, fun hlow hhigh => ?_, fun hout => ?_, fun hres => ?_⟩
  · refine ⟨_, exec_ldMemVx hlow hhigh, rfl, fun k hk => read_writeBytes_regsUpTo s hm hhigh hk, fun a ha => ?_⟩
    exact read_writeBytes_outside _ _ _ a (by omega)
  · rw [exec_ldMemVx_eq_storeBlock, complete_storeBlock_of_outOfRange _ s hpos (by omega)]
    rfl
  · rw [exec_ldMemVx_eq_storeBlock, complete_storeBlock_of_reserved _ s hpos (by omega) (by omega)]
    rfl

/-- LD Vx,[I] with its block inside memory completes (20_memory.md R55; R133). -/
theorem exec_ldVxMem {x : RegIx} {s : State} (hhigh : s.base + x.val ≤ 4095) :
    exec (.ldVxMem x) s = .next (s.loadRegsUpTo x s.base).advance := by
  have hl : loadFault s.base (x.val + 1) = none := by
    rw [loadFault_eq, if_pos (by omega)]
  simp only [exec, execLdVxMem, hl, complete]

/-- LD Vx,[I] with a byte of its block above 4095 faults before any register is written (R133). -/
theorem exec_ldVxMem_of_outOfRange {x : RegIx} {s : State} (hout : 4095 < s.base + x.val) :
    exec (.ldVxMem x) s =
      .next (takeFault (.dataOutOfRange (max s.base 4096)) (some (encode (.ldVxMem x))) s) := by
  have hl : loadFault s.base (x.val + 1) = some (.dataOutOfRange (max s.base 4096)) := by
    rw [loadFault_eq, if_neg (by omega)]
  simp only [exec, execLdVxMem, hl, complete]

/-- Settles O28: LD Vx,[I] by the two answers of the check before its block is read. -/
theorem registersAreLoadedOrFault : Obligations.RegistersAreLoadedOrFault := by
  intro x s
  refine ⟨wordXNN_toNat_pattern 0xF#4 x 0x65#8, fun hhigh => ?_, exec_ldVxMem_of_outOfRange⟩
  refine ⟨_, exec_ldVxMem hhigh, rfl, fun k hk => ?_, fun k hk => ?_⟩
  · rw [reg_advance, reg_loadRegsUpTo, if_pos hk]
    rfl
  · rw [reg_advance, reg_loadRegsUpTo, if_neg (not_le.mpr hk)]

/-- The numbers of the three digit bytes: each fits its byte (R135). -/
theorem map_toNat_decimalDigits (b : Byte) :
    (decimalDigits b).map BitVec.toNat = [b.toNat / 100, b.toNat / 10 % 10, b.toNat % 10] := by
  have := b.isLt
  simp only [decimalDigits, List.map_cons, List.map_nil, BitVec.toNat_ofNat, List.cons.injEq, and_true]
  omega

/-- The digits, stored from `base` up in a canonical memory, are read back at their places (20_memory.md R58). -/
theorem toNat_read_writeBytes_decimalDigits {m : Memory} {base : Nat} (b : Byte) (hm : m.wf)
    (hhigh : base + 2 ≤ 4095) (k : Nat) (hk : k < 3) :
    ((m.writeBytes base (decimalDigits b)).read (base + k)).toNat =
      [b.toNat / 100, b.toNat / 10 % 10, b.toNat % 10][k] := by
  have hfit : base + (decimalDigits b).length ≤ memSize := by
    rw [decimalDigits_length, show memSize = 4096 from rfl]; omega
  rw [read_writeBytes (decimalDigits b) m base k hm hk hfit]
  simp only [← map_toNat_decimalDigits]
  exact (List.getElem_map _).symm

/-- Settles O29: LD B,Vx by the three answers of its block store. -/
theorem decimalDigitsAreStoredOrFault : Obligations.DecimalDigitsAreStoredOrFault := by
  intro x s hm
  have hlen := decimalDigits_length (s.reg x)
  have hpos : 0 < (decimalDigits (s.reg x)).length := by omega
  have hbase : s.base = s.iReg.toNat := rfl
  refine ⟨wordXNN_toNat_pattern 0xF#4 x 0x33#8, fun hlow hhigh => ?_, fun hout => ?_, fun hres => ?_⟩
  · have hdigit := toNat_read_writeBytes_decimalDigits (s.reg x) hm hhigh
    rw [exec_ldB_eq_storeBlock]
    refine ⟨_, complete_storeBlock_of_writable _ s hpos hlow (by omega), rfl,
      hdigit 0 (by decide), hdigit 1 (by decide), hdigit 2 (by decide), fun a ha => ?_⟩
    exact read_writeBytes_outside _ _ _ a (by omega)
  · rw [exec_ldB_eq_storeBlock, complete_storeBlock_of_outOfRange _ s hpos (by omega)]
    rfl
  · rw [exec_ldB_eq_storeBlock, complete_storeBlock_of_reserved _ s hpos (by omega) (by omega)]
    rfl

/-- The low nibble of a register as a number (R134). -/
theorem val_lowNibble (s : State) (x : RegIx) : (s.lowNibble x).val = (s.reg x).toNat % 16 := by
  simp [State.lowNibble]

/-- The address of a glyph does not wrap (R134). -/
theorem toNat_glyphAddress (d : Fin 16) : (glyphAddress d).toNat = 0x050 + 5 * d.val :=
  (BitVec.toNat_ofNat _ _).trans (Nat.mod_eq_of_lt (by simp only [fontBase, glyphBytes]; omega))

/-- Settles O26: each of the three is a `setI` of its address. -/
theorem addressRegisterWrites : Obligations.AddressRegisterWrites := by
  intro nnn x s
  refine ⟨wordNNN_toNat 0xA#4 nnn, wordXNN_toNat_pattern 0xF#4 x 0x1E#8, wordXNN_toNat_pattern 0xF#4 x 0x29#8,
    ⟨_, rfl, rfl, toNat_addressOperand nnn⟩, ⟨_, rfl, rfl, ?_⟩, ⟨_, rfl, rfl, ?_⟩⟩
  · rw [advance_iReg, setI_iReg, BitVec.toNat_add, toNat_wordOfByte]
  · rw [advance_iReg, setI_iReg, toNat_glyphAddress, val_lowNibble]

end Sys2Proof.Machine

end

section
/-! PROOF. CLS and DRW (43_display.md R140 to R142): the two loops of a draw are one fold over the cells of the sprite's set
bits, and a cell is drawn once. -/

namespace Sys2Proof.Machine

/-- The blank framebuffer has no set pixel (R140). -/
@[simp] theorem pixel_blankFrame (r c : Nat) : pixel blankFrame r c = false := by
  simp [pixel, blankFrame]

/-- Settles O31: CLS is one update to the blank framebuffer. -/
theorem clsClearsTheFramebuffer : Obligations.ClsClearsTheFramebuffer :=
  ⟨rfl, fun _ => ⟨_, rfl, rfl, pixel_blankFrame⟩⟩

/-- There is no pixel outside the grid. -/
theorem pixel_outside {r c : Nat} (fb : Frame) (h : ¬(r < 32 ∧ c < 64)) : pixel fb r c = false := by
  rw [pixel, dif_neg h]

/-- A set pixel is inside the grid. -/
theorem grid_of_pixel {fb : Frame} {r c : Nat} (h : pixel fb r c = true) : r < 32 ∧ c < 64 := by
  by_contra hout
  exact Bool.false_ne_true ((pixel_outside fb hout).symm.trans h)

/-- Framebuffers with the same pixels are the same. -/
theorem frame_ext {f g : Frame} (h : ∀ r c, r < 32 → c < 64 → pixel f r c = pixel g r c) : f = g := by
  refine Vector.ext fun r hr => Vector.ext fun c hc => ?_
  simpa only [pixel, dif_pos (And.intro hr hc)] using h r c hr hc

/-- A drawn bit flips its own pixel and no other (R141). -/
theorem pixel_plot {r c : Nat} (a : Nat × Nat) (p : Frame × Bool) (hr : r < 32) (hc : c < 64) :
    pixel (plot a.1 a.2 p).1 r c = (pixel p.1 r c ^^ decide ((r, c) = a)) := by
  obtain ⟨i, j⟩ := a
  by_cases ha : i < 32 ∧ j < 64
  · simp only [plot, pixel, ha, hr, hc, and_self, dite_true, Vector.getElem_set, Prod.mk.injEq]
    by_cases hi : i = r
    · subst hi
      by_cases hj : j = c
      · subst hj; simp
      · simp [hj, Ne.symm hj]
    · simp [hi, Ne.symm hi]
  · have hne : (r, c) ≠ (i, j) := by rintro ⟨⟩; exact ha ⟨hr, hc⟩
    rw [plot, dif_neg ha, decide_eq_false hne, Bool.xor_false]

/-- A drawn bit collides when its pixel was set; a clipped bit never does (R141). -/
theorem plot_hit (a : Nat × Nat) (p : Frame × Bool) : (plot a.1 a.2 p).2 = (p.2 || pixel p.1 a.1 a.2) := by
  by_cases ha : a.1 < 32 ∧ a.2 < 64
  · rw [plot, dif_pos ha]
  · rw [plot, dif_neg ha, pixel_outside p.1 ha, Bool.or_false]

/-- The set bits drawn at a list of cells (row, column), in its order. -/
def plotCells (cells : List (Nat × Nat)) (p : Frame × Bool) : Frame × Bool :=
  cells.foldl (fun q a => plot a.1 a.2 q) p

/-- The first cell is drawn first. -/
theorem plotCells_cons (a : Nat × Nat) (cells : List (Nat × Nat)) (p : Frame × Bool) :
    plotCells (a :: cells) p = plotCells cells (plot a.1 a.2 p) := rfl

/-- Bits drawn at cells that differ flip the pixels of those cells. -/
theorem pixel_plotCells {cells : List (Nat × Nat)} {r c : Nat} (hnd : cells.Nodup) (hr : r < 32) (hc : c < 64)
    (p : Frame × Bool) : pixel (plotCells cells p).1 r c = (pixel p.1 r c ^^ decide ((r, c) ∈ cells)) := by
  induction cells generalizing p with
  | nil => simp [plotCells]
  | cons a cells ih =>
    obtain ⟨hnot, hnd⟩ := List.nodup_cons.mp hnd
    rw [plotCells_cons, ih hnd, pixel_plot a p hr hc]
    by_cases ha : (r, c) = a
    · subst ha; simp [hnot]
    · simp [ha]

/-- Bits drawn at cells that differ collide when one of the cells was set before the first of them was drawn. -/
theorem plotCells_hit_iff {cells : List (Nat × Nat)} (hnd : cells.Nodup) (p : Frame × Bool) :
    (plotCells cells p).2 = true ↔ p.2 = true ∨ ∃ a ∈ cells, pixel p.1 a.1 a.2 = true := by
  induction cells generalizing p with
  | nil => simp [plotCells]
  | cons a cells ih =>
    obtain ⟨hnot, hnd⟩ := List.nodup_cons.mp hnd
    have hkept : ∀ b ∈ cells, pixel (plot a.1 a.2 p).1 b.1 b.2 = pixel p.1 b.1 b.2 := by
      intro b hb
      by_cases hgrid : b.1 < 32 ∧ b.2 < 64
      · have hne : (b.1, b.2) ≠ a := by rintro rfl; exact hnot hb
        rw [pixel_plot a p hgrid.1 hgrid.2, decide_eq_false hne, Bool.xor_false]
      · rw [pixel_outside _ hgrid, pixel_outside _ hgrid]
    rw [plotCells_cons, ih hnd, plot_hit, Bool.or_eq_true, or_assoc, List.exists_mem_cons_iff]
    exact or_congr_right (or_congr_right (exists_congr fun b => and_congr_right fun hb => by rw [hkept b hb]))

/-- The cells of the set bits of a sprite byte at row `r` from column `x0` on, in the order of the inner loop. -/
def rowCells (b : Byte) (r x0 : Nat) : List (Nat × Nat) :=
  ((List.range 8).filter (spriteBit b)).map fun j => (r, x0 + j)

/-- The cells of a sprite's set bits, clipped ones included, in the order of the two loops. -/
def spriteCells (m : Memory) (base n x0 y0 : Nat) : List (Nat × Nat) :=
  (List.range n).flatMap fun k => rowCells (m.read (base + k)) (y0 + k) x0

/-- The inner loop draws the cells of its row. -/
theorem plotRow_eq (b : Byte) (r x0 : Nat) (p : Frame × Bool) : plotRow b r x0 p = plotCells (rowCells b r x0) p := by
  rw [plotCells, rowCells, List.foldl_map, List.foldl_filter, plotRow]

/-- The two loops draw the cells of the sprite. -/
theorem plotSprite_eq (m : Memory) (base n x0 y0 : Nat) (p : Frame × Bool) :
    plotSprite m base n x0 y0 p = plotCells (spriteCells m base n x0 y0) p := by
  rw [plotCells, spriteCells, List.foldl_flatMap, plotSprite]
  simp only [plotRow_eq, plotCells]

/-- The cells of one row, by position. -/
theorem mem_rowCells {b : Byte} {i x0 r c : Nat} :
    (r, c) ∈ rowCells b i x0 ↔ r = i ∧ x0 ≤ c ∧ c < x0 + 8 ∧ spriteBit b (c - x0) = true := by
  simp only [rowCells, List.mem_map, List.mem_filter, List.mem_range, Prod.mk.injEq]
  constructor
  · rintro ⟨j, ⟨hj, hbit⟩, rfl, rfl⟩
    exact ⟨rfl, by omega, by omega, by rwa [Nat.add_sub_cancel_left]⟩
  · rintro ⟨rfl, hlow, hhigh, hbit⟩
    exact ⟨c - x0, ⟨by omega, hbit⟩, rfl, by omega⟩

/-- The cells of a sprite, by position. -/
theorem mem_spriteCells {m : Memory} {base n x0 y0 r c : Nat} :
    (r, c) ∈ spriteCells m base n x0 y0 ↔
      (y0 ≤ r ∧ r < y0 + n ∧ x0 ≤ c ∧ c < x0 + 8) ∧ spriteBit (m.read (base + (r - y0))) (c - x0) = true := by
  simp only [spriteCells, List.mem_flatMap, List.mem_range, mem_rowCells]
  constructor
  · rintro ⟨k, hk, rfl, hlow, hhigh, hbit⟩
    exact ⟨by omega, by rwa [Nat.add_sub_cancel_left]⟩
  · rintro ⟨⟨htop, hbottom, hlow, hhigh⟩, hbit⟩
    exact ⟨r - y0, by omega, by omega, hlow, hhigh, hbit⟩

/-- No cell of a sprite is drawn twice: rows differ in their row, the bits of a row in their column. -/
theorem nodup_spriteCells (m : Memory) (base n x0 y0 : Nat) : (spriteCells m base n x0 y0).Nodup := by
  refine List.nodup_flatMap.mpr ⟨fun k _ => ?_, List.nodup_range.imp fun {k l} hkl => ?_⟩
  · refine (List.nodup_range.filter _).map fun i j hij => ?_
    exact Nat.add_left_cancel (congrArg Prod.snd hij)
  · rintro ⟨r, c⟩ hk hl
    obtain ⟨hrk, -⟩ := mem_rowCells.mp hk
    obtain ⟨hrl, -⟩ := mem_rowCells.mp hl
    omega

section

variable (s : State) (x y : RegIx) (n : BitVec 4)

/-- The cells DRW draws are those its sprite covers. -/
theorem mem_spriteCells_iff_spriteCovers {r c : Nat} :
    (r, c) ∈ spriteCells s.mem s.base n.toNat (startColumn (s.reg x)) (startRow (s.reg y)) ↔
      s.spriteCovers x y n r c = true := by
  rw [mem_spriteCells, State.spriteCovers, Bool.and_eq_true, decide_eq_true_iff]
  rfl

/-- The framebuffer after the loops of DRW (R141). -/
theorem pixel_drawn {r c : Nat} (hr : r < 32) (hc : c < 64) :
    pixel (s.drawn x y n).1 r c = (pixel s.fb r c ^^ s.spriteCovers x y n r c) := by
  rw [State.drawn, plotSprite_eq, pixel_plotCells (nodup_spriteCells ..) hr hc]
  simp only [mem_spriteCells_iff_spriteCovers, Bool.decide_eq_true]

/-- The collision after the loops of DRW (R141). -/
theorem drawn_hit_iff : (s.drawn x y n).2 = true ↔
    ∃ r c, r < 32 ∧ c < 64 ∧ pixel s.fb r c = true ∧ s.spriteCovers x y n r c = true := by
  rw [State.drawn, plotSprite_eq, plotCells_hit_iff (nodup_spriteCells ..)]
  simp only [Bool.false_eq_true, false_or]
  constructor
  · rintro ⟨⟨r, c⟩, hmem, hset⟩
    obtain ⟨hr, hc⟩ := grid_of_pixel hset
    exact ⟨r, c, hr, hc, hset, (mem_spriteCells_iff_spriteCovers s x y n).mp hmem⟩
  · rintro ⟨r, c, -, -, hset, hcov⟩
    exact ⟨(r, c), (mem_spriteCells_iff_spriteCovers s x y n).mpr hcov, hset⟩

variable {s n}

/-- DRW with its sprite inside memory completes (20_memory.md R55; R141). -/
theorem exec_drw (hin : n.toNat = 0 ∨ s.base + n.toNat - 1 ≤ 4095) :
    exec (.drw x y n) s = .next (State.requestRedraw
      (State.setReg { s with fb := (s.drawn x y n).1 } 15 (flagByte (s.drawn x y n).2))).advance := by
  have hl : loadFault s.base n.toNat = none := by
    rw [loadFault_eq, if_pos (by omega)]
  simp only [exec, execDrw, hl, complete, flagReg]

/-- DRW with a sprite byte above 4095 faults before any pixel is drawn (R141). -/
theorem exec_drw_of_outOfRange (hpos : 0 < n.toNat) (hout : 4095 < s.base + n.toNat - 1) :
    exec (.drw x y n) s =
      .next (takeFault (.dataOutOfRange (max s.base 4096)) (some (encode (.drw x y n))) s) := by
  have hl : loadFault s.base n.toNat = some (.dataOutOfRange (max s.base 4096)) := by
    rw [loadFault_eq, if_neg (by omega)]
  simp only [exec, execDrw, hl, complete]

/-- What a sprite covers depends on memory, on `I` and on the two registers that place it. -/
theorem spriteCovers_congr {t : State} (hmem : t.mem = s.mem) (hi : t.iReg = s.iReg) (hx : t.reg x = s.reg x)
    (hy : t.reg y = s.reg y) : t.spriteCovers x y n = s.spriteCovers x y n := by
  funext r c
  simp only [State.spriteCovers, hmem, hi, hx, hy]

end

/-- A flag is 1 exactly when its condition holds (R21). -/
theorem flagByte_eq_one_iff (c : Bool) : flagByte c = 1 ↔ c = true := by
  cases c <;> decide

/-- Settles O32: DRW by the two answers of the check before its sprite is read. -/
theorem drwDrawsOrFaults : Obligations.DrwDrawsOrFaults := by
  intro x y n s
  refine ⟨wordXYN_toNat 0xD#4 x y n, fun hin => ?_, exec_drw_of_outOfRange x y⟩
  refine ⟨_, exec_drw x y hin, rfl, fun r c => pixel_drawn s x y n, ?_, ?_, fun j hj => ?_⟩
  · rw [reg_advance, reg_requestRedraw, reg_setReg_same]
    exact (flagByte_zero_or_one _).symm
  · rw [reg_advance, reg_requestRedraw, reg_setReg_same, flagByte_eq_one_iff, drawn_hit_iff]
  · exact reg_setReg_ne _ 15 j _ hj

/-- Settles O33: the second draw covers the cells of the first, so each of its pixels is flipped back. -/
theorem drawingTwiceRestores : Obligations.DrawingTwiceRestores := by
  intro x y n s hx hy hin
  obtain ⟨-, hdraw, -⟩ := drwDrawsOrFaults x y n s
  obtain ⟨t, hst, ht, hpix, -, -, hreg⟩ := hdraw hin
  have hmem : t.mem = s.mem := by rw [ht]
  have hi : t.iReg = s.iReg := by rw [ht]
  have hcov : t.spriteCovers x y n = s.spriteCovers x y n := spriteCovers_congr x y hmem hi (hreg x hx) (hreg y hy)
  obtain ⟨-, hdraw', -⟩ := drwDrawsOrFaults x y n t
  obtain ⟨u, htu, -, hpix', -, hhit, -⟩ := hdraw' (hi.symm ▸ hin)
  refine ⟨t, u, hst, htu, frame_ext fun r c hr hc => ?_, hhit.trans ?_⟩
  · rw [hpix' r c hr hc, hcov, hpix r c hr hc, Bool.xor_assoc, Bool.xor_self, Bool.xor_false]
  · have hbefore : ∀ r c, r < 32 → c < 64 → s.spriteCovers x y n r c = true →
        (pixel t.fb r c = true ↔ pixel s.fb r c = false) := by
      intro r c hr hc hset
      rw [hpix r c hr hc, hset, Bool.xor_true, Bool.not_eq_true']
    simp only [hcov]
    refine exists_congr fun r => exists_congr fun c => and_congr_right fun hr => and_congr_right fun hc => ?_
    exact and_congr_left (hbefore r c hr hc)

end Sys2Proof.Machine

end

section
/-! PROOF. The timer instructions and the tone level (44_timers_sound.md R150 to R152, 60_exceptions.md R178). -/

namespace Sys2Proof.Machine

/-- LD Vx,DT writes one register and no flag (R150). -/
theorem exec_ldVxDt_eq_writeReg (x : RegIx) (s : State) : exec (.ldVxDt x) s = .next (s.writeReg x s.dt) := rfl

/-- The tone sounds exactly while the sound timer is not 0 (R178). -/
theorem tone_eq_true_iff (s : State) : s.tone = true ↔ s.st.toNat ≠ 0 :=
  bne_iff_ne.trans BitVec.toNat_ne_iff_ne.symm

/-- Settles O34: the word of each move, then its update; LD Vx,DT is a `writeReg` of the delay timer. -/
theorem timerMovesAndTone : Obligations.TimerMovesAndTone := by
  intro x s
  refine ⟨wordXNN_toNat_pattern 0xF#4 x 0x07#8, wordXNN_toNat_pattern 0xF#4 x 0x15#8,
    wordXNN_toNat_pattern 0xF#4 x 0x18#8, ⟨_, exec_ldVxDt_eq_writeReg x s, rfl, ?_, fun j hj => ?_⟩, rfl, rfl,
    tone_eq_true_iff s⟩
  · exact reg_of_next_writeReg (exec_ldVxDt_eq_writeReg x s)
  · rw [reg_writeReg, if_neg hj]

end Sys2Proof.Machine

end

section
/-! PROOF. The key skips and the key wait, from its start to its completion (45_input.md R160 to R163). -/

namespace Sys2Proof.Machine

/-- The key flag that SKP and SKNP test is that of the key the low nibble names (R160). -/
theorem keyDown_eq {x : RegIx} {s : State} {k : KeyIx} (hk : k.val = (s.reg x).toNat % 16) :
    s.keyDown x = s.keys[k.val] := by
  obtain rfl : k = s.lowNibble x := Fin.ext (hk.trans (val_lowNibble s x).symm)
  rfl

/-- Settles O16: each skip is `skipIf` of its condition on the key. -/
theorem keySkipsAddTwo : Obligations.KeySkipsAddTwo := by
  intro x s k hk
  have hdown := keyDown_eq hk
  refine ⟨wordXNN_toNat_pattern 0xE#4 x 0x9E#8, wordXNN_toNat_pattern 0xE#4 x 0xA1#8, ?_, ?_⟩
  · exact congrArg Host.Outcome.next (skipIf_of_iff s (by rw [hdown]))
  · exact congrArg Host.Outcome.next (skipIf_of_iff s (by rw [hdown, Bool.not_eq_true']))

/-- A batch with no step enabled takes no further instruction: its next step ends the cycle (60_exceptions.md R179
step 6). -/
theorem step_of_not_enabled {s : State} {n : Nat} (hh : s.halted = false) (hp : s.phase = .batch n)
    (hen : s.enabled = false) : step s = .next (endOfCycle s) := by
  obtain ⟨hh', -⟩ | ⟨-, htop, -⟩ | ⟨_, -, -, hen', -⟩ | ⟨_, -, -, -, he⟩ := step_cases s
  · exact nomatch hh.symm.trans hh'
  · exact nomatch hp.symm.trans htop
  · exact nomatch hen.symm.trans hen'
  · exact he

/-- Settles O38: the state LD Vx,K leaves is not enabled, so the step after it ends the cycle. -/
theorem keyWaitStartsHeld : Obligations.KeyWaitStartsHeld := by
  intro x s
  refine ⟨wordXNN_toNat_pattern 0xF#4 x 0x0A#8, rfl, fun t n ht hp hrs hf => ?_⟩
  cases ht
  refine ⟨_, step_of_not_enabled (n := n) ?_ hp ?_, ?_⟩
  · simp [State.halted, hrs, hf]
  · simp [State.enabled]
  · rw [endOfCycle_running (State.emit { s with wait := some x } (.awaitingKeypress x)) hrs]
    exact ⟨rfl, rfl, rfl, rfl⟩

/-- A machine at the top of a cycle that has not stopped takes its input there (60_exceptions.md R179 steps 1 and 2). -/
theorem stepWith_of_cycleTop (ipc : Nat) (inp : HostInput) {s : State} (hp : s.phase = .cycleTop)
    (hrs : s.rs ≠ .stopped) (hf : s.fault = none) : stepWith ipc inp s = .next (topOfCycle ipc inp s) := by
  have hh : s.halted = false := by simp [State.halted, hrs, hf]
  simp only [stepWith, nextEvent, hh, hp, Bool.false_eq_true, if_false]

/-- The byte of a key's number does not wrap (R163). -/
theorem toNat_keyByte (k : KeyIx) : (keyByte k).toNat = k.val :=
  (BitVec.toNat_ofNat _ _).trans (Nat.mod_eq_of_lt (by omega))

/-- Looking for a completion keeps the key flags (R163). -/
@[simp] theorem completeKeyWait_keys (old : Keys) (s : State) : (completeKeyWait old s).keys = s.keys := by
  obtain ⟨-, he⟩ | ⟨_, _, -, -, he⟩ := completeKeyWait_cases old s <;> rw [he]
  rfl

/-- Looking for a completion keeps the run state (R163). -/
@[simp] theorem completeKeyWait_rs (old : Keys) (s : State) : (completeKeyWait old s).rs = s.rs := by
  obtain ⟨-, he⟩ | ⟨_, _, -, -, he⟩ := completeKeyWait_cases old s <;> rw [he]
  rfl

section

variable {ipc : Nat} {inp : HostInput} {s : State}

/-- The top of a cycle replaces all 16 flags by the sample (60_exceptions.md R175). -/
theorem topOfCycle_keys : (topOfCycle ipc inp s).keys = inp.keys := by
  obtain ⟨-, he⟩ | ⟨-, he⟩ | ⟨-, he⟩ := topOfCycle_cases ipc inp s <;> rw [he]
  · rfl
  · rfl
  · exact completeKeyWait_keys _ _

/-- The top of a cycle leaves `RS` as the control signal makes it (60_exceptions.md R175). -/
theorem topOfCycle_rs : (topOfCycle ipc inp s).rs = applyControl (controlOf inp) s.rs := by
  obtain ⟨-, he⟩ | ⟨-, he⟩ | ⟨-, he⟩ := topOfCycle_cases ipc inp s <;> rw [he]
  · rfl
  · rfl
  · exact completeKeyWait_rs _ _

/-- A Running cycle starts its batch at full length (60_exceptions.md R179 step 6). -/
theorem topOfCycle_phase_of_running (hrs : applyControl (controlOf inp) s.rs = .running) :
    (topOfCycle ipc inp s).phase = .batch ipc := by
  simp only [topOfCycle, inputSample_rs, hrs]

/-- A cycle that is not Running does not look at the key wait (R163). -/
theorem topOfCycle_of_not_running (hrs : applyControl (controlOf inp) s.rs ≠ .running) :
    (topOfCycle ipc inp s).v = s.v ∧ (topOfCycle ipc inp s).wait = s.wait ∧ (topOfCycle ipc inp s).pc = s.pc := by
  obtain ⟨-, he⟩ | ⟨-, he⟩ | ⟨hrun, -⟩ := topOfCycle_cases ipc inp s
  · rw [he]
    exact ⟨rfl, rfl, rfl⟩
  · rw [he]
    exact ⟨rfl, rfl, rfl⟩
  · exact absurd hrun hrs

/-- At the top of a Running cycle the key found completes the wait (R163). -/
theorem topOfCycle_of_newPress {r : RegIx} {k : KeyIx} (hrs : applyControl (controlOf inp) s.rs = .running)
    (hw : s.wait = some r) (hk : newlyPressed s.keys inp.keys = some k) :
    topOfCycle ipc inp s = { s.setReg r (keyByte k) with
      pc := s.pc + 2, wait := none, keys := inp.keys, rs := .running
      samples := s.samples + 1, phase := .batch ipc, outputs := [] } := by
  simp [topOfCycle, completeKeyWait, inputSample, hrs, hw, hk, State.advance, State.setPc, State.setReg]

/-- At the top of a Running cycle without a new press the key wait stays as it is (R163). -/
theorem topOfCycle_of_no_newPress (hrs : applyControl (controlOf inp) s.rs = .running)
    (hk : newlyPressed s.keys inp.keys = none) :
    topOfCycle ipc inp s = { s with
      keys := inp.keys, rs := .running, samples := s.samples + 1, phase := .batch ipc, outputs := [] } := by
  simp [topOfCycle, completeKeyWait, inputSample, hrs, hk]

end

/-- Settles O39: in a Running cycle the key found is the lowest new press; a cycle that is not Running looks for none. -/
theorem keyWaitCompletesOnNewPress : Obligations.KeyWaitCompletesOnNewPress := by
  intro ipc inp s t r hp hrs hf hw h
  rw [stepWith_of_cycleTop ipc inp hp hrs hf] at h
  cases h
  rw [topOfCycle_rs]
  refine ⟨topOfCycle_keys, fun hrun => ?_, fun hrun => hw ▸ topOfCycle_of_not_running hrun⟩
  refine ⟨topOfCycle_phase_of_running hrun, fun k hup hdown hlow => ?_, fun hnone => ?_⟩
  · rw [topOfCycle_of_newPress hrun hw ((newlyPressed_some _ _ k).mpr ⟨hup, hdown, hlow⟩)]
    refine ⟨?_, rfl, rfl, fun j hj => reg_setReg_ne s r j _ hj⟩
    exact (congrArg BitVec.toNat (reg_setReg_same s r _)).trans (toNat_keyByte k)
  · rw [topOfCycle_of_no_newPress hrun ((newlyPressed_none _ _).mpr hnone)]
    exact ⟨rfl, hw, rfl⟩

end Sys2Proof.Machine

end

section
/-! PROOF. Which fault an instruction step raises, and what the step answers with it and without one (60_exceptions.md
R170 to R173). -/

namespace Sys2Proof.Machine

/-- The fault of the memory access of `i`, if any: the check before its block is stored or, for an instruction that does
not store, before it is read (20_memory.md R55, R56). An instruction that touches no byte has none. -/
def accessFault (i : Instr) (s : State) : Option Fault :=
  if storesToMemory i = true then storeFault s.base (bytesTouched i) else loadFault s.base (bytesTouched i)

/-- The fault that executing `i` raises, if any (R170, codes 2, 3, 5 and 6). -/
def instrFault (i : Instr) (s : State) : Option Fault :=
  match i with
  | .ret => if s.sp.val = 0 then some .stackUnderflow else none
  | .call _ => if s.sp.val = 16 then some .stackOverflow else none
  | _ => accessFault i s

/-- The fault that an instruction step raises, if any (R170). -/
def stepFault (s : State) : Option Fault :=
  if 4094 < s.pc.toNat then some (.fetchOutOfRange s.pc.toNat)
  else match decode (s.wordAt s.pc.toNat) with
    | .error _ => some .unknownOpcode
    | .ok i => instrFault i s

/-- The word a fault's record holds (R170): none for a fetch fault, else the word fetched. -/
def recordedWord (f : Fault) (s : State) : Option Word :=
  if f.code = 4 then none else some (s.wordAt s.pc.toNat)

/-- No instruction touches more than 16 bytes. -/
theorem bytesTouched_le (i : Instr) : bytesTouched i ≤ 16 := by
  cases i with
  | drw x y n => exact Nat.le_of_lt_succ (n.isLt.trans (by decide))
  | ldMemVx x | ldVxMem x => exact x.isLt
  | ldB => exact Nat.le_of_ble_eq_true rfl
  | _ => exact Nat.zero_le _

/-- An instruction that stores touches a byte. -/
theorem bytesTouched_pos {i : Instr} (h : storesToMemory i = true) : 0 < bytesTouched i := by
  cases i with
  | ldB | ldMemVx => exact Nat.succ_pos _
  | _ => cases h

/-- The first address above 4095 of a block is 4096, or the block's own first address when that is higher (R55). -/
theorem first_above_iff {base len a : Nat} :
    (0 < len ∧ 4095 < a ∧ base ≤ a ∧ a < base + len ∧ ∀ b, 4095 < b → base ≤ b → b < base + len → a ≤ b) ↔
      (0 < len ∧ 4096 < base + len) ∧ max base 4096 = a := by
  constructor
  · rintro ⟨hlen, ha, hbase, hlt, hmin⟩
    have hle := hmin (max base 4096) (by omega) (by omega) (by omega)
    omega
  · rintro ⟨⟨hlen, hout⟩, rfl⟩
    exact ⟨hlen, by omega, by omega, by omega, fun b _ _ _ => by omega⟩

/-- The fault of the check before a read (R55). -/
theorem loadFault_eq_some_iff {base len : Nat} {f : Fault} :
    loadFault base len = some f ↔ (0 < len ∧ 4096 < base + len) ∧ .dataOutOfRange (max base 4096) = f := by
  rw [loadFault_eq, Option.ite_none_left_eq_some, Option.some.injEq]
  exact and_congr_left fun _ => by omega

/-- The fault of the check before a write of 1 to 16 bytes: no such block meets both conditions (R55, R56). -/
theorem storeFault_eq_some_iff {base len : Nat} {f : Fault} (hpos : 0 < len) (hle : len ≤ 16) :
    storeFault base len = some f ↔
      (4096 < base + len ∧ .dataOutOfRange (max base 4096) = f) ∨ (base < 512 ∧ .reservedWrite base = f) := by
  rw [storeFault_eq base len hpos]
  split_ifs with hout hlow
  · have hlow : ¬base < 512 := by omega
    simp [hout, hlow]
  · simp [hout, hlow]
  · simp [hout, hlow]

/-- A write that passes its check lies inside the writable addresses (R55, R56). -/
theorem writable_of_storeFault_none {base len : Nat} (hpos : 0 < len) (h : storeFault base len = none) :
    512 ≤ base ∧ base + len ≤ 4096 := by
  rw [storeFault_eq base len hpos] at h
  split_ifs at h with hout hlow
  omega

/-- The faults of a memory access: DataOutOfRange with the first address above 4095, or, for a store, ReservedWrite with
its own first address (R55, R56). -/
theorem accessFault_eq_some_iff {i : Instr} {s : State} {f : Fault} :
    accessFault i s = some f ↔
      ((0 < bytesTouched i ∧ 4096 < s.base + bytesTouched i) ∧ .dataOutOfRange (max s.base 4096) = f) ∨
      (storesToMemory i = true ∧ s.base < 512 ∧ .reservedWrite s.base = f) := by
  unfold accessFault
  split_ifs with hst
  · have hpos := bytesTouched_pos hst
    simp [storeFault_eq_some_iff hpos (bytesTouched_le i), hst, hpos]
  · simp [loadFault_eq_some_iff, hst]

/-- The faults of an instruction: of the call stack, or of its memory access (R170). -/
theorem instrFault_eq_some_iff {i : Instr} {s : State} {f : Fault} :
    instrFault i s = some f ↔
      (f = .stackOverflow ∧ (∃ nnn, i = .call nnn) ∧ s.sp.val = 16) ∨
      (f = .stackUnderflow ∧ i = .ret ∧ s.sp.val = 0) ∨
      accessFault i s = some f := by
  cases i with
  | ret | call =>
    simp [instrFault, accessFault, storesToMemory, bytesTouched, loadFault_eq, eq_comm, and_comm]
  | _ => simp [instrFault]

/-- The faults of an instruction step: of the fetch, of the decoder, or of the decoded instruction (R170). -/
theorem stepFault_eq_some_iff {s : State} {f : Fault} :
    stepFault s = some f ↔
      (4094 < s.pc.toNat ∧ f = .fetchOutOfRange s.pc.toNat) ∨
      (s.pc.toNat ≤ 4094 ∧ (∃ e, decode (s.wordAt s.pc.toNat) = .error e) ∧ f = .unknownOpcode) ∨
      (s.pc.toNat ≤ 4094 ∧ ∃ i, decode (s.wordAt s.pc.toNat) = .ok i ∧ instrFault i s = some f) := by
  unfold stepFault
  split_ifs with hpc
  · simp [hpc, eq_comm]
  · have hle : s.pc.toNat ≤ 4094 := by omega
    cases decode (s.wordAt s.pc.toNat) <;> simp [hle, hpc, eq_comm]

/-- Only the fetch raises code 4 (R170). -/
theorem code_ne_four_of_instrFault {i : Instr} {s : State} {f : Fault} (h : instrFault i s = some f) : f.code ≠ 4 := by
  obtain ⟨rfl, -⟩ | ⟨rfl, -⟩ | h := instrFault_eq_some_iff.mp h
  · decide
  · decide
  · obtain ⟨-, rfl⟩ | ⟨-, -, rfl⟩ := accessFault_eq_some_iff.mp h <;> exact nofun

/-- An instruction that ends in a block store takes the fault of the check before it. -/
theorem complete_storeBlock_of_fault {base : Nat} {bs : List Byte} {f : Fault} (i : Instr) (s : State)
    (h : storeFault base bs.length = some f) :
    complete i s ((storeBlock base bs s).map State.advance) = .next (takeFault f (some (encode i)) s) := by
  simp only [storeBlock, h]
  rfl

/-- An instruction that raises a fault takes it in the state before it (R171). -/
theorem exec_of_instrFault {i : Instr} {s : State} {f : Fault} (h : instrFault i s = some f) :
    exec i s = .next (takeFault f (some (encode i)) s) := by
  cases i with
  | ret =>
    obtain ⟨hsp, hf⟩ := Option.ite_none_right_eq_some.mp h
    cases hf
    exact exec_ret_empty hsp
  | call nnn =>
    obtain ⟨hsp, hf⟩ := Option.ite_none_right_eq_some.mp h
    cases hf
    exact exec_call_full nnn hsp
  | drw x y n =>
    have hl : loadFault s.base n.toNat = some f := h
    simp only [exec, execDrw, hl, complete]
  | ldVxMem x =>
    have hl : loadFault s.base (x.val + 1) = some f := h
    simp only [exec, execLdVxMem, hl, complete]
  | ldB x => rw [exec_ldB_eq_storeBlock]; exact complete_storeBlock_of_fault _ s h
  | ldMemVx x =>
    rw [exec_ldMemVx_eq_storeBlock]
    exact complete_storeBlock_of_fault _ s (by rw [regsUpTo_length]; exact h)
  | _ => exact nomatch (h : none = some f)

/-- An instruction that raises no fault completes. -/
theorem exec_of_no_instrFault {i : Instr} {s : State} (h : instrFault i s = none) :
    ∃ t, exec i s = .next t ∧ Completes i s t := by
  cases i with
  | ret =>
    have hsp : 0 < s.sp.val := Nat.pos_of_ne_zero fun hz => nomatch (if_pos hz).symm.trans h
    exact ⟨_, exec_ret_of_pos hsp, hsp, rfl⟩
  | call nnn =>
    have hsp : s.sp.val ≠ 16 := fun hfull => nomatch (if_pos hfull).symm.trans h
    have hsp : s.sp.val < 16 := by omega
    exact ⟨_, exec_call_of_lt nnn hsp, hsp, rfl⟩
  | drw x y n =>
    have hl : loadFault s.base n.toNat = none := h
    exact ⟨_, by simp only [exec, execDrw, hl, complete], hl, rfl⟩
  | ldVxMem x =>
    have hl : loadFault s.base (x.val + 1) = none := h
    exact ⟨_, by simp only [exec, execLdVxMem, hl, complete], hl, rfl⟩
  | ldB x =>
    obtain ⟨hlow, hhigh⟩ := writable_of_storeFault_none (Nat.succ_pos 2) h
    rw [exec_ldB_eq_storeBlock]
    exact ⟨_, complete_storeBlock_of_writable _ s (by simp) hlow hhigh, ⟨hlow, hhigh⟩, rfl⟩
  | ldMemVx x =>
    obtain ⟨hlow, hhigh⟩ := writable_of_storeFault_none (Nat.succ_pos x.val) h
    exact ⟨_, exec_ldMemVx hlow (Nat.le_of_succ_le_succ hhigh), ⟨hlow, hhigh⟩, rfl⟩
  | _ => exact ⟨_, rfl, rfl⟩

/-- An instruction that completes leaves the run state, the fault record and the phase as they were. -/
theorem Completes.frame {i : Instr} {s t : State} (h : Completes i s t) :
    t.rs = s.rs ∧ t.fault = s.fault ∧ t.phase = s.phase := by
  cases i with
  | ret | call | drw | ldVxMem | ldB | ldMemVx => obtain ⟨_, rfl⟩ := h; simp
  | rnd => cases h; exact ⟨rfl, rfl, rfl⟩
  | _ => cases h; simp

/-- An instruction step that raises a fault takes it, and has changed nothing before (R171). -/
theorem fetchDecodeExecute_of_stepFault {s : State} {f : Fault} (h : stepFault s = some f) :
    fetchDecodeExecute s = .next (takeFault f (recordedWord f s) s) := by
  obtain ⟨hpc, he⟩ | ⟨hpc, ⟨e, hd⟩, he⟩ | ⟨hpc, i, hd, he⟩ := fetchDecodeExecute_cases s
  · simp only [stepFault, hpc, if_true, Option.some.injEq] at h
    subst h
    exact he
  · simp only [stepFault, hpc.not_gt, hd, if_false, Option.some.injEq] at h
    subst h
    exact he
  · simp only [stepFault, hpc.not_gt, hd, if_false] at h
    rw [he, exec_of_instrFault h, encode_of_decode hd, recordedWord, if_neg (code_ne_four_of_instrFault h)]

/-- An instruction step that raises no fault completes the instruction it decodes (40_control_flow.md R100). -/
theorem fetchDecodeExecute_of_no_stepFault {s : State} (h : stepFault s = none) :
    ∃ i t, decode (s.wordAt s.pc.toNat) = .ok i ∧ fetchDecodeExecute s = .next t ∧ Completes i s t := by
  obtain ⟨hpc, -⟩ | ⟨hpc, ⟨e, hd⟩, -⟩ | ⟨hpc, i, hd, he⟩ := fetchDecodeExecute_cases s
  · simp [stepFault, hpc] at h
  · simp [stepFault, hpc.not_gt, hd] at h
  · simp only [stepFault, hpc.not_gt, hd, if_false] at h
    obtain ⟨t, ht, hc⟩ := exec_of_no_instrFault h
    exact ⟨i, t, hd, he.trans ht, hc⟩

/-- The state after an instruction step: the fault it raises is taken, or the decoded instruction has completed. -/
theorem afterStep_cases (s : State) :
    (∃ f, stepFault s = some f ∧ afterStep s = takeFault f (recordedWord f s) s) ∨
    (stepFault s = none ∧ ∃ i, decode (s.wordAt s.pc.toNat) = .ok i ∧ Completes i s (afterStep s)) := by
  cases h : stepFault s with
  | some f => exact .inl ⟨f, rfl, by simp only [afterStep, fetchDecodeExecute_of_stepFault h]⟩
  | none =>
    obtain ⟨i, t, hd, he, hc⟩ := fetchDecodeExecute_of_no_stepFault h
    exact .inr ⟨rfl, i, hd, by simpa only [afterStep, he] using hc⟩

/-- An instruction step answers a next state, with a fault and without (R171). -/
theorem fetchDecodeExecute_eq_afterStep (s : State) : fetchDecodeExecute s = .next (afterStep s) := by
  cases h : stepFault s with
  | some f => simp only [afterStep, fetchDecodeExecute_of_stepFault h]
  | none =>
    obtain ⟨i, t, -, he, -⟩ := fetchDecodeExecute_of_no_stepFault h
    simp only [afterStep, he]

/-- An enabled step with budget left, as a state (R179 step 6). -/
theorem step_eq_afterStep {s : State} {n : Nat} (hp : s.phase = .batch (n + 1)) (hen : s.enabled = true) :
    step s = .next (afterStep (beginStep n s)) :=
  (step_of_enabled hp hen).trans (fetchDecodeExecute_eq_afterStep _)

/-- A machine that has stopped takes no event (R173). -/
theorem stepWith_of_halted {s : State} (ipc : Nat) (inp : HostInput) (h : s.halted = true) :
    stepWith ipc inp s = .next s := by
  simp only [stepWith, nextEvent, h, if_true]

/-- A machine has stopped when it is Stopped or has a fault record (10_state.md R31). -/
theorem halted_iff {s : State} : s.halted = true ↔ s.rs = .stopped ∨ s.fault ≠ none := by
  simp [State.halted, Option.isSome_iff_ne_none]

/-- Settles O10: a machine that has stopped is idle. -/
theorem stoppedIsTerminal : Obligations.StoppedIsTerminal := fun _ h =>
  ⟨stepWith_of_halted _ _ (halted_iff.mpr h), fun ipc inp => stepWith_of_halted ipc inp (halted_iff.mpr h)⟩

/-- Settles O8: a step that ends with a record took the fault it raises, since a step that completes writes none. -/
theorem faultDiscardsTheStep : Obligations.FaultDiscardsTheStep := by
  intro s t n r hp hrs hw hf h hr
  rw [step_eq_afterStep hp (enabled_iff.mpr ⟨hrs, hw, hf⟩)] at h
  cases h
  obtain ⟨f, -, he⟩ | ⟨-, i, -, hc⟩ := afterStep_cases (beginStep n s)
  · rw [he] at hr ⊢
    cases hr
    exact ⟨rfl, rfl, rfl, stepWith_of_halted _ _ rfl⟩
  · obtain ⟨-, hfault, -⟩ := hc.frame
    exact nomatch (hfault.trans hf).symm.trans hr

/-- The cause of the record after an instruction step is the fault the step raises (R170). -/
theorem cause_iff_stepFault {s : State} {f : Fault} (hf : s.fault = none) :
    (∃ r, (afterStep s).fault = some r ∧ r.cause = f) ↔ stepFault s = some f := by
  obtain ⟨g, hg, he⟩ | ⟨hg, i, -, hc⟩ := afterStep_cases s <;> rw [hg]
  · simp [he]
  · obtain ⟨-, hfault, -⟩ := hc.frame
    simp [hfault, hf]

/-- The start of an instruction step leaves every word in memory alone. -/
@[simp] theorem wordAt_beginStep (n : Nat) (s : State) (a : Nat) : (beginStep n s).wordAt a = s.wordAt a := rfl

/-- Settles O9: the step's next state records the fault the step raises; then one clause for each fault. -/
theorem faultsAreRaisedExactlyWhen : Obligations.FaultsAreRaisedExactlyWhen := by
  refine ⟨fun _ => ⟨rfl, rfl, rfl, rfl, rfl, rfl⟩, fun s n hp hrs hw hf => ?_⟩
  have hs := step_eq_afterStep hp (enabled_iff.mpr ⟨hrs, hw, hf⟩)
  refine ⟨_, hs, fun r hr => ?_, fun f => ?_⟩
  · obtain ⟨-, hpc, hop, -⟩ := faultDiscardsTheStep s _ n r hp hrs hw hf hs hr
    exact ⟨hpc, hop⟩
  · rw [cause_iff_stepFault (s := beginStep n s) hf, stepFault_eq_some_iff]
    simp only [instrFault_eq_some_iff, accessFault_eq_some_iff, State.base]
    cases f with
    | fetchOutOfRange a => simp
    | unknownOpcode => simp
    | stackOverflow => simp
    | stackUnderflow => simp
    | dataOutOfRange a => simp [first_above_iff]
    | reservedWrite a => simp [eq_comm (a := a)]

/-- Settles O11: each kind of event answers a next state. -/
theorem everyStepAnswersNext : Obligations.EveryStepAnswersNext := by
  intro s
  obtain ⟨-, he⟩ | ⟨-, -, he⟩ | ⟨n, -, -, -, he⟩ | ⟨n, -, -, -, he⟩ := step_cases s
  · exact ⟨_, he⟩
  · exact ⟨_, he⟩
  · exact ⟨_, he.trans (fetchDecodeExecute_eq_afterStep _)⟩
  · exact ⟨_, he⟩

end Sys2Proof.Machine
end

section
/-! PROOF. The events of the scheduling cycle and the run state (60_exceptions.md R175, R177, R179, R180). -/

namespace Sys2Proof.Machine

/-- A timer after a tick: one less, and 0 stays 0 (R177). -/
theorem toNat_countDown (b : Byte) : (countDown b).toNat = b.toNat - 1 := by
  unfold countDown
  split_ifs with h
  · subst h; rfl
  · have : b.toNat ≠ 0 := fun e => h (BitVec.eq_of_toNat_eq e)
    bv_omega

/-- A Running batch with no budget left, or with no step enabled, ends its cycle (R179 step 6). -/
theorem step_of_batch_over {s : State} {n : Nat} (hp : s.phase = .batch n) (hrs : s.rs = .running) (hf : s.fault = none)
    (hover : n = 0 ∨ s.enabled = false) : step s = .next (endOfCycle s) := by
  have hh : s.halted = false := by simp [State.halted, hrs, hf]
  obtain rfl | hen := hover
  · simp only [step, stepWith, nextEvent, hh, hp, Bool.false_eq_true, if_false]
  · exact step_of_not_enabled hh hp hen

/-- Settles O35: the batch is over, so the step is the end of a Running cycle. -/
theorem cycleEndTicksOnce : Obligations.CycleEndTicksOnce := by
  intro s n hp hrs hf hover
  have hover : n = 0 ∨ s.enabled = false := hover.imp_right fun hw => Bool.eq_false_iff.mpr fun hen => by
    obtain ⟨-, hnone, -⟩ := enabled_iff.mp hen
    exact hw hnone
  have hstep := step_of_batch_over hp hrs hf hover
  rw [endOfCycle_running s hrs] at hstep
  exact ⟨_, hstep, toNat_countDown s.dt, toNat_countDown s.st, rfl⟩

/-- `RS` after the control signal of an input sample that a machine not Stopped takes: Quit wins (R175). -/
theorem applyControl_controlOf (inp : HostInput) {rs : RunState} (h : rs ≠ .stopped) :
    applyControl (controlOf inp) rs =
      if inp.quit = true then .stopped
      else if inp.pauseToggle = true then (if rs = .running then .paused else .running)
      else rs := by
  unfold controlOf
  split_ifs with hq ht hr
  · rfl
  · rw [hr]; rfl
  · cases rs with
    | running => exact absurd rfl hr
    | paused => rfl
    | stopped => exact absurd rfl h
  · rfl

/-- Settles O36: the flags and the signal by definition; a Stopped machine is idle. -/
theorem inputSampleAppliesOneSignal : Obligations.InputSampleAppliesOneSignal := by
  refine fun inp s => ⟨fun hrs => ?_, fun hrs ipc => stepWith_of_halted ipc inp (halted_iff.mpr (.inl hrs))⟩
  rw [← applyControl_controlOf inp hrs]
  rfl

section

variable {ipc : Nat} {inp : HostInput} {s : State}

/-- The top of a cycle that the input stops (R179 step 3). -/
theorem topOfCycle_of_stopped (h : applyControl (controlOf inp) s.rs = .stopped) :
    topOfCycle ipc inp s = { s with
      keys := inp.keys, rs := .stopped, samples := s.samples + 1, outputs := [] } := by
  simp [topOfCycle, inputSample, h]

/-- The top of a cycle that is Paused (R179 step 4). -/
theorem topOfCycle_of_paused (h : applyControl (controlOf inp) s.rs = .paused) :
    topOfCycle ipc inp s = { s with
      keys := inp.keys, rs := .paused, samples := s.samples + 1, outputs := [.presentRequest] } := by
  simp [topOfCycle, inputSample, h, presentRequest, State.emit]

/-- The top of a Running cycle with no key awaited (R179 step 5). -/
theorem topOfCycle_of_no_wait (h : applyControl (controlOf inp) s.rs = .running) (hw : s.wait = none) :
    topOfCycle ipc inp s = { s with
      keys := inp.keys, rs := .running, samples := s.samples + 1, phase := .batch ipc, outputs := [] } := by
  simp [topOfCycle, completeKeyWait, inputSample, h, hw]

/-- What the top of a Running cycle may change: the completion of a key wait writes a register, `PC` and `WAIT`
(R179 step 5, 45_input.md R163). -/
theorem topOfCycle_frame (h : applyControl (controlOf inp) s.rs = .running) :
    topOfCycle ipc inp s = { s with
      v := (topOfCycle ipc inp s).v, pc := (topOfCycle ipc inp s).pc, wait := (topOfCycle ipc inp s).wait
      keys := inp.keys, rs := .running, samples := s.samples + 1, phase := .batch ipc, outputs := [] } := by
  cases hw : s.wait with
  | none => rw [topOfCycle_of_no_wait h hw]
  | some r =>
    cases hk : newlyPressed s.keys inp.keys with
    | none => rw [topOfCycle_of_no_newPress h hk]
    | some k => rw [topOfCycle_of_newPress h hw hk]; rfl

end

/-- Settles O37: the three outcomes of the top of a cycle, by the run state after the input. -/
theorem cycleTopSamplesThenRuns : Obligations.CycleTopSamplesThenRuns := by
  intro ipc inp s hp hrs hf
  refine ⟨rfl, _, stepWith_of_cycleTop ipc inp hp hrs hf, topOfCycle_keys,
    topOfCycle_rs.trans (applyControl_controlOf inp hrs), fun h => ?_, fun h => ?_, fun h => ?_⟩ <;>
    rw [topOfCycle_rs] at h
  · rw [topOfCycle_keys]
    exact topOfCycle_of_stopped h
  · rw [topOfCycle_keys]
    exact topOfCycle_of_paused h
  · rw [topOfCycle_keys, topOfCycle_phase_of_running h]
    refine ⟨rfl, topOfCycle_frame h, fun hw => ?_⟩
    rw [topOfCycle_of_no_wait h hw]
    exact ⟨rfl, rfl, hw⟩

/-- The end of a cycle leaves the run state alone (R180). -/
@[simp] theorem endOfCycle_rs (s : State) : (endOfCycle s).rs = s.rs := by
  by_cases hrs : s.rs = .running
  · rw [endOfCycle_running s hrs]
  · rw [endOfCycle_other s hrs]

/-- An instruction step leaves the run state alone, or stops the machine with a record (R171, R180). -/
theorem afterStep_rs (s : State) :
    (afterStep s).rs = s.rs ∨ ((afterStep s).rs = .stopped ∧ ∃ r, (afterStep s).fault = some r) := by
  obtain ⟨f, -, he⟩ | ⟨-, i, -, hc⟩ := afterStep_cases s
  · rw [he]
    exact .inr ⟨rfl, _, rfl⟩
  · obtain ⟨hrs, -, -⟩ := hc.frame
    exact .inl hrs

/-- The run state changes at an input sample by Quit, or by PauseToggle between Running and Paused (R180). -/
theorem applyControl_ne {inp : HostInput} {rs : RunState} (hrs : rs ≠ .stopped)
    (h : applyControl (controlOf inp) rs ≠ rs) :
    (inp.quit = true ∧ applyControl (controlOf inp) rs = .stopped) ∨
    (inp.quit = false ∧ inp.pauseToggle = true ∧
      ((rs = .running ∧ applyControl (controlOf inp) rs = .paused) ∨
        (rs = .paused ∧ applyControl (controlOf inp) rs = .running))) := by
  rw [applyControl_controlOf inp hrs] at h ⊢
  cases hq : inp.quit with
  | true => simp
  | false =>
    cases ht : inp.pauseToggle with
    | true => cases rs <;> simp at hrs ⊢
    | false => simp [hq, ht] at h

/-- Settles O40: by the four kinds of event of R179. -/
theorem runStateFollowsTheTable : Obligations.RunStateFollowsTheTable := by
  intro ipc inp s t h
  refine ⟨fun hst => ?_, ?_⟩
  · rw [stepWith_of_halted ipc inp (halted_iff.mpr (.inl hst))] at h
    cases h
    rfl
  obtain ⟨-, he⟩ | ⟨hh, hp, he⟩ | ⟨n, hh, -, hen, he⟩ | ⟨n, hh, -, -, he⟩ := stepWith_cases ipc inp s <;> rw [he] at h
  · cases h
    exact ⟨fun hne => absurd rfl hne, fun _ _ => rfl⟩
  · cases h
    rw [topOfCycle_rs]
    refine ⟨fun hne => ?_, fun hs ht => by rw [topOfCycle_of_paused ht, hs]⟩
    exact (applyControl_ne (not_halted hh).1 hne).imp (⟨hp, ·⟩) fun hc => .inl ⟨hp, hc⟩
  · rw [fetchDecodeExecute_eq_afterStep] at h
    cases h
    obtain ⟨hrs, -, hf⟩ := enabled_iff.mp hen
    refine ⟨fun hne => ?_, fun hpz => nomatch hrs.symm.trans hpz⟩
    obtain ⟨hstop, hrec⟩ := (afterStep_rs (beginStep n s)).resolve_left hne
    exact .inr (.inr ⟨hrs, hstop, hf, hrec⟩)
  · cases h
    refine ⟨fun hne => absurd (endOfCycle_rs s) hne, fun hpz _ => ?_⟩
    rw [endOfCycle_other s (by rw [hpz]; decide)]

end Sys2Proof.Machine

end

section
/-! PROOF. The steps of the machine make the whole cycle of 60_exceptions.md R179. No part of a cycle reads the phase or the
outputs, so each event of the machine does its part of the pseudocode up to `State.bare`. -/

namespace Sys2Proof.Machine

/-- States alike but for phase and outputs stay alike under a function that reads neither. -/
theorem bare_congr {f : State → State} (hf : ∀ s, (f s.bare).bare = (f s).bare) {s t : State}
    (h : s.bare = t.bare) : (f s).bare = (f t).bare := by
  rw [← hf s, h, hf t]

/-- Whether a step is enabled depends on neither the phase nor the outputs. -/
theorem enabled_bare (s : State) : s.bare.enabled = s.enabled := rfl

/-- What an instruction completes in depends on neither the phase nor the outputs. -/
theorem Completes.bare {i : Instr} {s t u : State} (ht : Completes i s t) (hu : Completes i s.bare u) :
    u.bare = t.bare := by
  cases i with
  | ret | call | drw | ldVxMem | ldB | ldMemVx => obtain ⟨_, rfl⟩ := ht; obtain ⟨_, rfl⟩ := hu; rfl
  | seImm | sneImm | seReg | sneReg | skp | sknp => cases ht; cases hu; rw [skipIf_eq, skipIf_eq]; rfl
  | _ => cases ht; cases hu; rfl

/-- The fault of an instruction depends on neither the phase nor the outputs. -/
theorem instrFault_bare (i : Instr) (s : State) : instrFault i s.bare = instrFault i s := by
  cases i <;> rfl

/-- The fault of an instruction step depends on neither the phase nor the outputs. -/
theorem stepFault_bare (s : State) : stepFault s.bare = stepFault s := by
  have hword : s.bare.wordAt s.bare.pc.toNat = s.wordAt s.pc.toNat := rfl
  have hpc : s.bare.pc = s.pc := rfl
  unfold stepFault
  rw [hword, hpc]
  simp only [instrFault_bare]

/-- An instruction step depends on neither the phase nor the outputs: it raises the same fault, or completes the same
instruction. -/
theorem afterStep_bare (s : State) : (afterStep s.bare).bare = (afterStep s).bare := by
  have hsame := stepFault_bare s
  obtain ⟨f, hf, he⟩ | ⟨hf, i, hd, hc⟩ := afterStep_cases s <;>
    obtain ⟨f', hf', he'⟩ | ⟨hf', i', hd', hc'⟩ := afterStep_cases s.bare <;>
    rw [hf, hf'] at hsame <;> cases hsame
  · rw [he, he']
    rfl
  · cases hd.symm.trans hd'
    exact hc.bare hc'

/-- Looking for a key-wait completion depends on neither the phase nor the outputs. -/
theorem completeKeyWait_bare (old : Keys) (s : State) :
    (completeKeyWait old s.bare).bare = (completeKeyWait old s).bare := by
  have hwait : s.bare.wait = s.wait := rfl
  have hkeys : s.bare.keys = s.keys := rfl
  unfold completeKeyWait
  rw [hwait, hkeys]
  split <;> rfl

/-- The end of a Running cycle in R179's pseudocode, as one update (steps 7 and 8). -/
theorem finishCycle_running {s : State} (h : s.rs = .running) :
    finishCycle s = { s with
      dt := countDown s.dt
      st := countDown s.st
      redraw := false
      outputs := if s.redraw then s.outputs ++ [.presentRequest] else s.outputs } := by
  cases hd : s.redraw <;> simp [finishCycle, h, hd, tick, presentRequest, State.emit]

/-- A cycle that a fault has stopped has no tick and no present request. -/
theorem finishCycle_stopped {s : State} (h : s.rs = .stopped) : finishCycle s = s := by
  simp only [finishCycle, h]

/-- The end of a Running cycle does steps 7 and 8 of R179, up to phase and outputs. -/
theorem endOfCycle_bare {s t : State} (h : s.rs = .running) (ht : s.bare = t.bare) :
    (endOfCycle s).bare = (finishCycle t).bare := by
  have hrun : t.rs = .running := (congrArg State.rs ht).symm.trans h
  have hend : ∀ u : State, u.rs = .running → (finishCycle u).bare =
      { u.bare with dt := countDown u.bare.dt, st := countDown u.bare.st, redraw := false } := by
    intro u hu
    rw [finishCycle_running hu]
    rfl
  rw [hend t hrun, ← ht, endOfCycle_running s h]
  rfl

/-- A batch with no step enabled takes none (R179 step 6). -/
theorem runBatch_of_not_enabled {s : State} (n : Nat) (h : s.enabled = false) : runBatch n s = s := by
  cases n with
  | zero => rfl
  | succ n => simp only [runBatch, h, Bool.false_eq_true, if_false]

/-- Some number of steps leads from `s` to a state at the top of a cycle, or Stopped, that is `w` up to phase and
outputs. -/
def EndsCycleIn (s w : State) : Prop :=
  ∃ k t, core.run k s = .next t ∧ (t.phase = .cycleTop ∨ t.rs = .stopped) ∧ t.bare = w.bare

/-- No step is needed from a state that is at the end already. -/
theorem EndsCycleIn.here {s w : State} (hend : s.phase = .cycleTop ∨ s.rs = .stopped) (h : s.bare = w.bare) :
    EndsCycleIn s w :=
  ⟨0, s, rfl, hend, h⟩

/-- One step more is needed from the state before. -/
theorem EndsCycleIn.of_step {s t w : State} (hst : step s = .next t) (h : EndsCycleIn t w) : EndsCycleIn s w := by
  obtain ⟨k, u, hrun, hu⟩ := h
  refine ⟨k + 1, u, ?_, hu⟩
  simpa only [Host.Core.run, show core.step s = .next t from hst] using hrun

/-- A batch that is over makes the cycle's end. -/
theorem endsCycleIn_of_batch_over {n : Nat} {s w : State} (hp : s.phase = .batch n) (hrs : s.rs = .running)
    (hf : s.fault = none) (hover : n = 0 ∨ s.enabled = false) (hw : s.bare = w.bare) :
    EndsCycleIn s (finishCycle w) := by
  refine .of_step (step_of_batch_over hp hrs hf hover) (.here (.inl ?_) (endOfCycle_bare hrs hw))
  rw [endOfCycle_running s hrs]

/-- From inside a batch the machine's steps make the rest of the batch, as far as no fault stops it, and the cycle's
end (R179 steps 6 to 8). -/
theorem endsCycleIn_of_batch {n : Nat} {s w : State} (hp : s.phase = .batch n) (hrs : s.rs = .running)
    (hf : s.fault = none) (hw : s.bare = w.bare) : EndsCycleIn s (finishCycle (runBatch n w)) := by
  induction n generalizing s w with
  | zero => exact endsCycleIn_of_batch_over hp hrs hf (.inl rfl) hw
  | succ n ih =>
    have henw : w.enabled = s.enabled := by rw [← enabled_bare w, ← hw, enabled_bare]
    cases hen : s.enabled with
    | false =>
      rw [runBatch_of_not_enabled _ (henw.trans hen)]
      exact endsCycleIn_of_batch_over hp hrs hf (.inr hen) hw
    | true =>
      have hnext : (afterStep (beginStep n s)).bare = (afterStep w).bare := bare_congr afterStep_bare hw
      rw [runBatch, if_pos (henw.trans hen)]
      refine .of_step (step_eq_afterStep hp hen) ?_
      obtain ⟨f, -, he⟩ | ⟨-, i, -, hc⟩ := afterStep_cases (beginStep n s)
      · have hstop : (afterStep (beginStep n s)).rs = .stopped := by rw [he, takeFault_rs]
        have hstopw : (afterStep w).rs = .stopped := (congrArg State.rs hnext).symm.trans hstop
        rw [runBatch_of_not_enabled n (by simp [State.enabled, hstopw]), finishCycle_stopped hstopw]
        exact .here (.inr hstop) hnext
      · obtain ⟨hrs', hf', hp'⟩ := hc.frame
        exact ih hp' (hrs'.trans hrs) (hf'.trans hf) hnext

section

variable {ipc : Nat} {inp : HostInput} {s : State} (hrs : s.rs ≠ .stopped)

include hrs

/-- A whole cycle that the input stops (R179 step 3). -/
theorem wholeCycle_of_stopped (h : applyControl (controlOf inp) s.rs = .stopped) :
    wholeCycle ipc inp s = inputSample inp s := by
  unfold wholeCycle
  split
  · exact absurd ‹_› hrs
  · simp only [inputSample_rs, h]

/-- A whole Paused cycle (R179 step 4). -/
theorem wholeCycle_of_paused (h : applyControl (controlOf inp) s.rs = .paused) :
    wholeCycle ipc inp s = presentRequest (inputSample inp s) := by
  unfold wholeCycle
  split
  · exact absurd ‹_› hrs
  · simp only [inputSample_rs, h]

/-- A whole Running cycle (R179 steps 5 to 8). -/
theorem wholeCycle_of_running (h : applyControl (controlOf inp) s.rs = .running) :
    wholeCycle ipc inp s = finishCycle (runBatch ipc (completeKeyWait s.keys (inputSample inp s))) := by
  unfold wholeCycle
  split
  · exact absurd ‹_› hrs
  · simp only [inputSample_rs, h]

end

/-- Settles O47: one step makes the top of the cycle, and in a Running cycle the steps of the batch make the rest. -/
theorem stepsMakeTheWholeCycle : Obligations.StepsMakeTheWholeCycle := by
  intro s hp hf
  change EndsCycleIn s _
  by_cases hrs : s.rs = .stopped
  · exact .here (.inl hp) (by simp only [wholeCycle, hrs])
  refine .of_step (stepWith_of_cycleTop Config.ipc (Config.hostInput s.samples) hp hrs hf) ?_
  obtain ⟨h, he⟩ | ⟨h, he⟩ | ⟨h, he⟩ := topOfCycle_cases Config.ipc (Config.hostInput s.samples) s
  · rw [wholeCycle_of_stopped hrs h, he]
    exact .here (.inr h) rfl
  · rw [wholeCycle_of_paused hrs h, he]
    exact .here (.inl hp) rfl
  · have hfault := (congrArg State.fault (topOfCycle_frame (ipc := Config.ipc) h)).trans hf
    have hbare : (topOfCycle Config.ipc (Config.hostInput s.samples) s).bare =
        (completeKeyWait s.keys (inputSample (Config.hostInput s.samples) s)).bare := by
      rw [he]
      exact bare_congr (completeKeyWait_bare s.keys) rfl
    rw [wholeCycle_of_running hrs h]
    exact endsCycleIn_of_batch (topOfCycle_phase_of_running h) (topOfCycle_rs.trans h) hfault hbare

end Sys2Proof.Machine

end

section
/-! PROOF. Reset and program load: what a load writes, and that what it gives meets the invariant
(70_reset_and_hazards.md R200, R201). -/

namespace Sys2Proof.Machine

/-- `ROM_MAX` is 3584 (00_scope.md R4). -/
theorem romMax_eq : romMax = 3584 := rfl

/-- The empty program loads, and gives the reset state itself (R200, D31). -/
theorem load_nil : load [] = some State.reset := rfl

/-- A program that fits is written over the reset memory from ENTRY up, and nothing else differs from reset (R201). -/
theorem load_of_fits {rom : List Byte} (h : rom.length ≤ romMax) :
    load rom = some { State.reset with mem := State.reset.mem.writeBytes entry rom } := if_pos h

/-- A program that does not fit gives no machine (R201). -/
theorem load_of_too_long {rom : List Byte} (h : romMax < rom.length) : load rom = none :=
  if_neg (Nat.not_le.mpr h)

/-- A program loads in one way: it fits, and the state is the one of R201. -/
theorem load_eq_some {rom : List Byte} {s : State} (h : load rom = some s) :
    rom.length ≤ romMax ∧ s = { State.reset with mem := State.reset.mem.writeBytes entry rom } := by
  by_cases hfits : rom.length ≤ romMax
  · exact ⟨hfits, Option.some.inj (h.symm.trans (load_of_fits hfits))⟩
  · rw [load_of_too_long (Nat.not_le.mp hfits)] at h
    cases h

/-- A program of at most `ROM_MAX` bytes ends inside memory. -/
theorem entry_add_length_le {rom : List Byte} (h : rom.length ≤ romMax) : entry + rom.length ≤ memSize := by
  unfold romMax at h
  have : entry ≤ memSize := by decide
  omega

/-- The reset memory lists no byte, so it is canonical. -/
theorem reset_mem_wf : State.reset.mem.wf := ⟨.nil, nofun⟩

/-- A load keeps the canonical form because the program ends inside memory, and the reserved bytes because they lie
below ENTRY; the other clauses speak of what is as at reset. -/
theorem inv_of_load {rom : List Byte} {s : State} (h : load rom = some s) : s.Inv := by
  obtain ⟨hfits, rfl⟩ := load_eq_some h
  exact {
    memory := writeBytes_wf rom _ entry reset_mem_wf (entry_add_length_le hfits)
    fault := fun hrecord => absurd rfl hrecord
    paused := nofun
    redraw := fun _ => rfl
    wait := nofun
    stack := fun k hk => absurd hk k.val.not_lt_zero
    pc := by change (BitVec.ofNat 16 entry).toNat ≤ 4350; decide
    reserved := fun a ha => read_writeBytes_outside rom _ entry a fun hin => by omega }

/-- Settles O42: a load is one block write at ENTRY, which reads back inside the block and leaves the rest. -/
theorem programLoadCopiesOrFails : Obligations.ProgramLoadCopiesOrFails := by
  intro rom
  rw [← romMax_eq]
  refine ⟨fun hfits => ⟨_, load_of_fits hfits, rfl, fun k hk => ?_, fun a ha => ?_⟩, load_of_too_long⟩
  · exact read_writeBytes rom _ entry k reset_mem_wf hk (entry_add_length_le hfits)
  · exact read_writeBytes_outside rom _ entry a ha

/-- Settles O43: the reset state is the load of the empty program, so both parts are the invariant of a load. -/
theorem resetAndLoadMeetInvariant : Obligations.ResetAndLoadMeetInvariant :=
  ⟨inv_of_load load_nil, fun _ _ => inv_of_load⟩

end Sys2Proof.Machine

end
